-- ==== Sys2Proof/Word.lean ====
section
/-! DEFINITION. The Word of rule R13: an integer in a two's-complement range, and the wrap onto it. -/

namespace Sys2Proof

/-- The content of a register or of a heap cell. R8 and R13 define a Word as an integer in
`[-2^(W-1), 2^(W-1)-1]` with the width W a construction parameter; no instruction reads a bit of a
Word (R13), so a Word is an integer and its range is an invariant. -/
abbrev Word := Int

/-- `Word` of R13 as a check: v lies in `[-2^(W-1), 2^(W-1)-1]`. -/
def isWord (W : Nat) (v : Int) : Bool :=
  decide (-(2 ^ (W - 1) : Int) ≤ v ∧ v ≤ 2 ^ (W - 1) - 1)

/-- `wrap` of R13, the Word congruent to v modulo 2^W: `((v + 2^(W-1)) mod 2^W) - 2^(W-1)`. -/
def wrap (W : Nat) (v : Int) : Word :=
  (v + 2 ^ (W - 1)) % 2 ^ W - 2 ^ (W - 1)

end Sys2Proof
end

