-- ==== Sys2Proof/Config.lean ====
section
/-! DEFINITION. The construction parameters of rules R6 to R12 and the values the spec leaves free. -/

namespace Sys2Proof

/-- FREE VALUE (R10, R26, decision D14; log 2): what the heap cells hold after construction, before they
are brought into the Word range. `heapDraw d a` is the value of cell a in the launch contents number d. -/
opaque Config.heapDraw : Nat → Nat → Int

/-- FREE VALUE (R11, decision D4; log 3): the draw `exp_zero_neg`, before it is brought into the Word
range, of the construction whose draw is numbered d. -/
opaque Config.expDraw : Nat → Int

/-- The parameters CONSTRUCT takes (R86), fixed from then on (R42; log 1). -/
structure Params where
  /-- R6: the register count. -/
  N : Nat
  /-- R7: the heap capacity in cells. -/
  M : Nat
  /-- R8: the word width. -/
  W : Nat
  /-- R9: CALL_STACK_DEPTH; `none` is `unbounded`. -/
  depth : Option Nat
  /-- The model's own number for the free launch values `heap0` (R10) and `exp_zero_neg` (R11). -/
  draw : Nat
deriving DecidableEq, Repr

/-- The defaults of R6 to R9. The draw's number is a DESIGN CHOICE (log 1). -/
def Params.default : Params :=
  { N := 6, M := 100, W := 32, depth := none, draw := 0 }

/-- The ranges CONSTRUCT requires (R180). That every `heap0(a)` is a Word holds by the form of
`Params.heap0`. -/
def Params.valid (p : Params) : Bool :=
  decide (1 ≤ p.N ∧ p.N ≤ 10) && decide (2 ≤ p.W) && decide (1 ≤ p.M ∧ p.M ≤ 2 ^ (p.W - 1))
    && p.depth.all (fun d => decide (1 ≤ d))

/-- `heap0(a)` of R10: an unconstrained Word. -/
def Params.heap0 (p : Params) (a : Nat) : Word :=
  wrap p.W (Config.heapDraw p.draw a)

/-- `exp_zero_neg` of R11: an unconstrained Word. -/
def Params.expZeroNeg (p : Params) : Word :=
  wrap p.W (Config.expDraw p.draw)

end Sys2Proof
end

