-- ==== Sys2Proof/Syntax.lean ====
section
/-! DEFINITION. Text, keywords and formats, the decoded instruction (R84), and the causes of a fault (R161). -/

namespace Sys2Proof

/-- A line, or part of one: a finite sequence of characters (R14). Equality is exact (R14). -/
abbrev Text := List Char

/-- A register index as program text spells it: one decimal digit (R63). The range check against N is
R79's. -/
abbrev Reg := Fin 10

/-- The nineteen keywords of R62. -/
inductive Keyword where
  | mov | add | sub | mul | div | mod | exp
  | gt | lt | eq | print
  | jmp | jeq | call | ret
  | alloc | store | load | label
deriving DecidableEq, Repr

/-- The nine formats of R66 to R74. -/
inductive Format where
  /-- F-RI, R66. -/
  | ri
  /-- F-RR, R67. -/
  | rr
  /-- F-R, R68. -/
  | r
  /-- F-L, R69. -/
  | l
  /-- F-RRL, R70. -/
  | rrl
  /-- F-N, R71. -/
  | n
  /-- F-I, R72. -/
  | i
  /-- F-RA, R73. -/
  | ra
  /-- F-LBL, R74. -/
  | lbl
deriving DecidableEq, Repr

/-- The decoded instruction of R84, one constructor per row of spec/opcode_table.json. `label name` is
R84's `Nop`: it keeps the name of its line, which no meaning reads (log 8). -/
inductive Instr where
  | mov (rd : Reg) (imm : Word)
  | add (r1 r2 : Reg)
  | sub (r1 r2 : Reg)
  | mul (r1 r2 : Reg)
  | div (r1 r2 : Reg)
  | mod (r1 r2 : Reg)
  | exp (r1 r2 : Reg)
  | gt (r1 r2 : Reg)
  | lt (r1 r2 : Reg)
  | eq (r1 r2 : Reg)
  | print (r : Reg)
  | jmp (name : Text)
  | jeq (r1 r2 : Reg) (name : Text)
  | call (name : Text)
  | ret
  | alloc (size : Nat)
  | store (r : Reg) (addr : Int)
  | load (r : Reg) (addr : Int)
  | label (name : Text)
deriving DecidableEq, Repr

/-- A fault's code together with the info R161 records for it. -/
inductive FaultCause where
  /-- Code 1, UNKNOWN_OPCODE; info: the keyword. -/
  | unknownOpcode (keyword : Text)
  /-- Code 2, MALFORMED_OPERAND; info: the line. -/
  | malformedOperand (line : Text)
  /-- Code 3, REGISTER_OUT_OF_RANGE; info: the digit. -/
  | registerOutOfRange (digit : Reg)
  /-- Code 4, DIVIDE_BY_ZERO; info: r2. -/
  | divideByZero (r2 : Reg)
  /-- Code 5, MODULO_BY_ZERO; info: r2. -/
  | moduloByZero (r2 : Reg)
  /-- Code 6, UNDEFINED_LABEL; info: the name. -/
  | undefinedLabel (name : Text)
  /-- Code 7, CALL_STACK_EMPTY; no info. -/
  | callStackEmpty
  /-- Code 8, HEAP_ADDRESS_OUT_OF_RANGE; info: the address. -/
  | heapAddressOutOfRange (addr : Int)
  /-- Code 9, OUT_OF_MEMORY; info: the size. -/
  | outOfMemory (size : Nat)
  /-- Code 10, CALL_STACK_OVERFLOW; info: the name. -/
  | callStackOverflow (name : Text)
deriving DecidableEq, Repr

/-- The four classes of R160. -/
inductive FaultClass where
  | decode | arithmetic | controlFlow | memory
deriving DecidableEq, Repr

/-- The info of a fault record (R161, R166), one form for every code. -/
inductive FaultInfo where
  | none
  | text (t : Text)
  | register (r : Reg)
  | integer (z : Int)
deriving DecidableEq, Repr

end Sys2Proof
end

