-- ==== Sys2Proof/WellFormed.lean ====
section
/-! DEFINITION. When an instruction is one the decoder may answer: the typed fields of R84. -/

namespace Sys2Proof

/-- R24 and R79: the index is one of the machine's registers. -/
def regOk (p : Params) (r : Reg) : Bool :=
  decide (r.val < p.N)

/-- R65: a label name is a non-empty string. -/
def nameOk (name : Text) : Bool :=
  !name.isEmpty

/-- The field types of R84 under the construction parameters: register indices in [0, N), a Word
immediate (R76), a non-empty name (R65). A size is a natural number by its type (R77), and an address is
any integer (R78). -/
def Instr.wf (p : Params) : Instr → Bool
  | .mov rd imm => regOk p rd && isWord p.W imm
  | .add r1 r2 => regOk p r1 && regOk p r2
  | .sub r1 r2 => regOk p r1 && regOk p r2
  | .mul r1 r2 => regOk p r1 && regOk p r2
  | .div r1 r2 => regOk p r1 && regOk p r2
  | .mod r1 r2 => regOk p r1 && regOk p r2
  | .exp r1 r2 => regOk p r1 && regOk p r2
  | .gt r1 r2 => regOk p r1 && regOk p r2
  | .lt r1 r2 => regOk p r1 && regOk p r2
  | .eq r1 r2 => regOk p r1 && regOk p r2
  | .print r => regOk p r
  | .jmp name => nameOk name
  | .jeq r1 r2 name => regOk p r1 && regOk p r2 && nameOk name
  | .call name => nameOk name
  | .ret => true
  | .alloc _ => true
  | .store r _ => regOk p r
  | .load r _ => regOk p r
  | .label name => nameOk name

end Sys2Proof
end

