-- ==== Sys2Proof/Decode.lean ====
section
/-! DEFINITION. Decimal text, the encoding tables of 30_encoding.md, the decoder of R75, and the encoder. -/

namespace Sys2Proof

/-! ## Decimal text -/

/-- `dec` of R124 and R125: an optional `-` and decimal digits with no leading zeros. -/
def dec (v : Int) : Text :=
  match v with
  | .ofNat n => Nat.toDigits 10 n
  | .negSucc n => '-' :: Nat.toDigits 10 (n + 1)

/-- `[0-9]+` of R64. -/
def isDigits (t : Text) : Bool :=
  !t.isEmpty && t.all Char.isDigit

/-- An integer field (R64): `-?[0-9]+` and nothing else, of any magnitude; leading zeros and `-0` are
allowed. -/
def parseInteger (t : Text) : Option Int :=
  if t.head? = some '-' then
    if isDigits t.tail then some (-(Nat.ofDigitChars 10 t.tail 0 : Int)) else none
  else if isDigits t then some (Nat.ofDigitChars 10 t 0 : Int)
  else none

/-- The value of a register digit (R63). -/
def digitValue (c : Char) : Reg :=
  Fin.ofNat 10 (c.toNat - '0'.toNat)

/-! ## The encoding tables -/

/-- The keyword's characters (R62). -/
def Keyword.text : Keyword → Text
  | .mov => "MOV".toList
  | .add => "ADD".toList
  | .sub => "SUB".toList
  | .mul => "MUL".toList
  | .div => "DIV".toList
  | .mod => "MOD".toList
  | .exp => "EXP".toList
  | .gt => "GT".toList
  | .lt => "LT".toList
  | .eq => "EQ".toList
  | .print => "PRINT".toList
  | .jmp => "JMP".toList
  | .jeq => "JEQ".toList
  | .call => "CALL".toList
  | .ret => "RET".toList
  | .alloc => "ALLOC".toList
  | .store => "STORE".toList
  | .load => "LOAD".toList
  | .label => "LABEL".toList

/-- The keyword set of R62. -/
def Keyword.all : List Keyword :=
  [.mov, .add, .sub, .mul, .div, .mod, .exp, .gt, .lt, .eq, .print, .jmp, .jeq, .call, .ret, .alloc,
    .store, .load, .label]

/-- The keyword a text spells, if it is one of R62's; compared exactly (R62, R14). -/
def Keyword.ofText? (t : Text) : Option Keyword :=
  Keyword.all.find? (fun kw => kw.text == t)

/-- The format column of R62. -/
def Keyword.format : Keyword → Format
  | .mov => .ri
  | .add | .sub | .mul | .div | .mod | .exp => .rr
  | .gt | .lt | .eq => .rr
  | .print => .r
  | .jmp | .call => .l
  | .jeq => .rrl
  | .ret => .n
  | .alloc => .i
  | .store | .load => .ra
  | .label => .lbl

/-- `length_ok` of R75, for a keyword of k characters and a line of len characters. -/
def Format.lengthOk (k len : Nat) : Format → Bool
  | .ri => decide (8 ≤ len)
  | .rr => decide (len = k + 6)
  | .r => decide (len = 8)
  | .l => decide (k + 2 ≤ len)
  | .rrl => decide (11 ≤ len)
  | .n => decide (len = 3)
  | .i => decide (7 ≤ len)
  | .ra => decide (k + 5 ≤ len)
  | .lbl => decide (7 ≤ len)

/-- The fixed characters of the format tables R66 to R74, by increasing offset. -/
def Format.fixedChars (k : Nat) : Format → List (Nat × Char)
  | .ri => [(3, ' '), (4, 'R'), (6, ' ')]
  | .rr => [(k, ' '), (k + 1, 'R'), (k + 3, ' '), (k + 4, 'R')]
  | .r => [(5, ' '), (6, 'R')]
  | .l => [(k, ' ')]
  | .rrl => [(3, ' '), (4, 'R'), (6, ' '), (7, 'R'), (9, ' ')]
  | .n => []
  | .i => [(5, ' ')]
  | .ra => [(k, ' '), (k + 1, 'R'), (k + 3, ' ')]
  | .lbl => [(5, ' ')]

/-- The offsets of the register digits of R66 to R74, increasing. -/
def Format.digitOffsets (k : Nat) : Format → List Nat
  | .ri => [5]
  | .rr => [k + 2, k + 5]
  | .r => [7]
  | .l => []
  | .rrl => [5, 8]
  | .n => []
  | .i => []
  | .ra => [k + 2]
  | .lbl => []

/-- Where the integer field starts (R64, R66, R72, R73). -/
def Format.integerOffset (k : Nat) : Format → Option Nat
  | .ri => some 7
  | .i => some 6
  | .ra => some (k + 4)
  | .rr | .r | .l | .rrl | .n | .lbl => none

/-- Where the label field starts (R65, R69, R70, R74). -/
def Format.nameOffset (k : Nat) : Format → Option Nat
  | .l => some (k + 1)
  | .rrl => some 10
  | .lbl => some 6
  | .ri | .rr | .r | .n | .i | .ra => none

/-! ## The decoder -/

/-- `keyword(s)` of R61: the characters before the first space, or the whole line. -/
def keywordOf (s : Text) : Text :=
  s.takeWhile (· != ' ')

/-- The shape checks of R75: the length, every fixed character, every register digit. They all report
code 2 with the line, so their order among themselves shows nowhere. -/
def shapeOk (kw : Keyword) (s : Text) : Bool :=
  let k := kw.text.length
  kw.format.lengthOk k s.length
    && (kw.format.fixedChars k).all (fun oc => s[oc.1]? == some oc.2)
    && (kw.format.digitOffsets k).all (fun o => s[o]?.any Char.isDigit)

/-- The integer field of a line (0 for a format that has none), `none` where it does not match R64, where
MOV's is no Word (R76) or where ALLOC's is negative (R77). -/
def integerField (p : Params) (kw : Keyword) (s : Text) : Option Int :=
  match kw.format.integerOffset kw.text.length with
  | none => some 0
  | some o =>
    match parseInteger (s.drop o) with
    | none => none
    | some v =>
      if kw = .mov ∧ isWord p.W v = false then none
      else if kw = .alloc ∧ v < 0 then none
      else some v

/-- The register digits of a line, in increasing offset. -/
def registerFields (kw : Keyword) (s : Text) : List Reg :=
  (kw.format.digitOffsets kw.text.length).map (fun o => digitValue (s.getD o '0'))

/-- The label field of a line (empty for a format that has none). -/
def nameField (kw : Keyword) (s : Text) : Text :=
  match kw.format.nameOffset kw.text.length with
  | none => []
  | some o => s.drop o

/-- The decoded value of R84 from the keyword and the fields its format gives it; `LABEL name` is R84's
`Nop`, kept with its name (log 8). -/
def assemble (kw : Keyword) (rs : List Reg) (v : Int) (name : Text) : Instr :=
  let r1 := rs.getD 0 0
  let r2 := rs.getD 1 0
  match kw with
  | .mov => .mov r1 v
  | .add => .add r1 r2
  | .sub => .sub r1 r2
  | .mul => .mul r1 r2
  | .div => .div r1 r2
  | .mod => .mod r1 r2
  | .exp => .exp r1 r2
  | .gt => .gt r1 r2
  | .lt => .lt r1 r2
  | .eq => .eq r1 r2
  | .print => .print r1
  | .jmp => .jmp name
  | .jeq => .jeq r1 r2 name
  | .call => .call name
  | .ret => .ret
  | .alloc => .alloc v.toNat
  | .store => .store r1 v
  | .load => .load r1 v
  | .label => .label name

/-- `decode(s)` of R75: total on every line (R81), the first failing check reported: the keyword (code 1),
shape and integer field (code 2), then the register range in increasing offset (code 3, R79). -/
def decode (p : Params) (s : Text) : Except FaultCause Instr :=
  match Keyword.ofText? (keywordOf s) with
  | none => .error (.unknownOpcode (keywordOf s))
  | some kw =>
    if shapeOk kw s then
      match integerField p kw s with
      | none => .error (.malformedOperand s)
      | some v =>
        match (registerFields kw s).find? (fun d => !regOk p d) with
        | some d => .error (.registerOutOfRange d)
        | none => .ok (assemble kw (registerFields kw s) v (nameField kw s))
    else .error (.malformedOperand s)

/-! ## The encoder -/

/-- The keyword an instruction is written with (R62, R84). -/
def Instr.keyword : Instr → Keyword
  | .mov _ _ => .mov
  | .add _ _ => .add
  | .sub _ _ => .sub
  | .mul _ _ => .mul
  | .div _ _ => .div
  | .mod _ _ => .mod
  | .exp _ _ => .exp
  | .gt _ _ => .gt
  | .lt _ _ => .lt
  | .eq _ _ => .eq
  | .print _ => .print
  | .jmp _ => .jmp
  | .jeq _ _ _ => .jeq
  | .call _ => .call
  | .ret => .ret
  | .alloc _ => .alloc
  | .store _ _ => .store
  | .load _ _ => .load
  | .label _ => .label

/-- A space and a register field: `R` and one digit (R63). -/
def encReg (r : Reg) : Text :=
  [' ', 'R', Nat.digitChar r.val]

/-- A space and an integer field in its canonical spelling (R64). -/
def encInt (v : Int) : Text :=
  ' ' :: dec v

/-- A space and a label field (R65). -/
def encName (name : Text) : Text :=
  ' ' :: name

/-- The operand fields of an instruction's line, in the order of its format (R66 to R74). -/
def Instr.operands : Instr → Text
  | .mov rd imm => encReg rd ++ encInt imm
  | .add r1 r2 => encReg r1 ++ encReg r2
  | .sub r1 r2 => encReg r1 ++ encReg r2
  | .mul r1 r2 => encReg r1 ++ encReg r2
  | .div r1 r2 => encReg r1 ++ encReg r2
  | .mod r1 r2 => encReg r1 ++ encReg r2
  | .exp r1 r2 => encReg r1 ++ encReg r2
  | .gt r1 r2 => encReg r1 ++ encReg r2
  | .lt r1 r2 => encReg r1 ++ encReg r2
  | .eq r1 r2 => encReg r1 ++ encReg r2
  | .print r => encReg r
  | .jmp name => encName name
  | .jeq r1 r2 name => encReg r1 ++ encReg r2 ++ encName name
  | .call name => encName name
  | .ret => []
  | .alloc size => encInt size
  | .store r addr => encReg r ++ encInt addr
  | .load r addr => encReg r ++ encInt addr
  | .label name => encName name

/-- The line of an instruction (R83): its keyword and its operand fields. -/
def encode (i : Instr) : Text :=
  i.keyword.text ++ i.operands

/-! ## The format tables read as lines -/

/-- The lines R66 to R74 give an instruction, each format's table written as one line. An integer field may
be any spelling of its value (R64); every other line of an instruction is the only one. -/
def spells (line : Text) : Instr → Prop
  | .mov rd imm =>
    ∃ t, line = "MOV R".toList ++ [Nat.digitChar rd.val, ' '] ++ t ∧ parseInteger t = some imm
  | .add r1 r2 => line = "ADD R".toList ++ [Nat.digitChar r1.val, ' ', 'R', Nat.digitChar r2.val]
  | .sub r1 r2 => line = "SUB R".toList ++ [Nat.digitChar r1.val, ' ', 'R', Nat.digitChar r2.val]
  | .mul r1 r2 => line = "MUL R".toList ++ [Nat.digitChar r1.val, ' ', 'R', Nat.digitChar r2.val]
  | .div r1 r2 => line = "DIV R".toList ++ [Nat.digitChar r1.val, ' ', 'R', Nat.digitChar r2.val]
  | .mod r1 r2 => line = "MOD R".toList ++ [Nat.digitChar r1.val, ' ', 'R', Nat.digitChar r2.val]
  | .exp r1 r2 => line = "EXP R".toList ++ [Nat.digitChar r1.val, ' ', 'R', Nat.digitChar r2.val]
  | .gt r1 r2 => line = "GT R".toList ++ [Nat.digitChar r1.val, ' ', 'R', Nat.digitChar r2.val]
  | .lt r1 r2 => line = "LT R".toList ++ [Nat.digitChar r1.val, ' ', 'R', Nat.digitChar r2.val]
  | .eq r1 r2 => line = "EQ R".toList ++ [Nat.digitChar r1.val, ' ', 'R', Nat.digitChar r2.val]
  | .print r => line = "PRINT R".toList ++ [Nat.digitChar r.val]
  | .jmp name => line = "JMP ".toList ++ name
  | .jeq r1 r2 name =>
    line = "JEQ R".toList ++ [Nat.digitChar r1.val, ' ', 'R', Nat.digitChar r2.val, ' '] ++ name
  | .call name => line = "CALL ".toList ++ name
  | .ret => line = "RET".toList
  | .alloc size => ∃ t, line = "ALLOC ".toList ++ t ∧ parseInteger t = some (size : Int)
  | .store r addr =>
    ∃ t, line = "STORE R".toList ++ [Nat.digitChar r.val, ' '] ++ t ∧ parseInteger t = some addr
  | .load r addr =>
    ∃ t, line = "LOAD R".toList ++ [Nat.digitChar r.val, ' '] ++ t ∧ parseInteger t = some addr
  | .label name => line = "LABEL ".toList ++ name

/-! ## Fault codes (R160, R161) -/

/-- The code of R161. -/
def FaultCause.code : FaultCause → Nat
  | .unknownOpcode _ => 1
  | .malformedOperand _ => 2
  | .registerOutOfRange _ => 3
  | .divideByZero _ => 4
  | .moduloByZero _ => 5
  | .undefinedLabel _ => 6
  | .callStackEmpty => 7
  | .heapAddressOutOfRange _ => 8
  | .outOfMemory _ => 9
  | .callStackOverflow _ => 10

/-- The class column of R161. -/
def FaultCause.cls : FaultCause → FaultClass
  | .unknownOpcode _ | .malformedOperand _ | .registerOutOfRange _ => .decode
  | .divideByZero _ | .moduloByZero _ => .arithmetic
  | .undefinedLabel _ | .callStackEmpty | .callStackOverflow _ => .controlFlow
  | .heapAddressOutOfRange _ | .outOfMemory _ => .memory

/-- The info column of R161, in one form. -/
def FaultCause.info : FaultCause → FaultInfo
  | .unknownOpcode keyword => .text keyword
  | .malformedOperand line => .text line
  | .registerOutOfRange digit => .register digit
  | .divideByZero r2 => .register r2
  | .moduloByZero r2 => .register r2
  | .undefinedLabel name => .text name
  | .callStackEmpty => .none
  | .heapAddressOutOfRange addr => .integer addr
  | .outOfMemory size => .integer size
  | .callStackOverflow name => .text name

/-! ## Lines given as numbers -/

/-- n characters from a number, the first in the lowest eight bits (log 7). -/
def charsOfNat : Nat → Nat → Text
  | 0, _ => []
  | n + 1, w => Char.ofNat (w % 256) :: charsOfNat n (w / 256)

/-- Drop the zero bytes after the last character: no line of the machine ends in one by its own format
(R60: a line carries no terminator), and the bits above an instruction's are zero (log 7). -/
def dropPadding : Text → Text
  | [] => []
  | c :: rest =>
    let t := dropPadding rest
    if t.isEmpty ∧ c.toNat = 0 then [] else c :: t

/-- The line whose characters, one byte each from bit 0 up, are the low nbits of w (log 7). -/
def lineOfWord (nbits w : Nat) : Text :=
  dropPadding (charsOfNat (nbits / 8) w)

/-- What the decoder reads from a line given as a number, under the default parameters of R6 to R9. -/
def decodeTableWord (nbits w : Nat) : Option Instr :=
  match decode Params.default (lineOfWord nbits w) with
  | .ok i => some i
  | .error _ => none

end Sys2Proof
end

