-- ==== Sys2Proof/Machine/State.lean ====
section
/-! DEFINITION. The state of rule R42 as plain data, the reasons a step or a host operation stops, and reset. -/

namespace Sys2Proof.Machine

/-- The execution status of R36. -/
inductive Status where
  /-- Constructed, no program run yet. -/
  | idle
  | running
  | halted
deriving DecidableEq, Repr

/-- A fault record (R166): the code with its info, the position of the faulting line and its text. -/
structure FaultRecord where
  cause : FaultCause
  position : Nat
  line : Text
deriving DecidableEq, Repr

/-- `halt_cause` of R39. -/
inductive HaltCause where
  | none
  | normal
  | fault (record : FaultRecord)
deriving DecidableEq, Repr

/-- An event of the merged trace (R41, decision D31): a line of OUT or a record of ERR. -/
inductive Event where
  /-- A line `PRINT` appends (R40). -/
  | out (line : Text)
  /-- A record a fault halt appends (R41). -/
  | err (record : FaultRecord)
deriving DecidableEq, Repr

/-- The heap cells a `STORE` has written since construction, with the Word last written, by rising cell
number. A cell not listed reads as `heap0` of R10 (R48; log 4). -/
abbrev Memory := List (Nat × Word)

/-- The canonical form of the heap's list (log 4): each stored cell once, by rising cell number. -/
abbrev Memory.wf (h : Memory) : Prop := h.Pairwise (fun x y => x.1 < y.1)

/-- The label table of R32 and R33: names with their positions, by rising name (log 10). -/
abbrev LabelTable := List (Text × Nat)

/-- The canonical form of a label table, which gives a name at most one entry (R33). -/
abbrev LabelTable.wf (t : LabelTable) : Prop := t.Pairwise (fun x y => x.1 < y.1)

/-- The complete state of R42, and the construction parameters of the instance (log 1). -/
structure State where
  /-- The parameters CONSTRUCT was given (R42, last line); no step writes them. -/
  params : Params
  /-- `x[0..N-1]` (R20). -/
  regs : List Word
  /-- The heap (R25). -/
  heap : Memory
  /-- SP, the allocation pointer (R27). -/
  sp : Int
  /-- CS, the call stack, its top first (R29). -/
  callStack : List Nat
  /-- The program's lines (R31). -/
  prog : List Text
  /-- The label table (R32). -/
  labels : LabelTable
  /-- The program counter, a natural number (R34). -/
  pc : Nat
  /-- R36. -/
  status : Status
  /-- R39. -/
  haltCause : HaltCause
  /-- OUT and ERR, merged in execution order, the oldest event first (R40, R41, D31). -/
  trace : List Event
deriving DecidableEq, Repr

/-- Why `step` answers no next state. A fault of the machine itself (R161) is no `Fault`: the fault halt of
R165 is a next state (log 6). -/
inductive Fault where
  /-- Raised by `step` while the status is idle: R91 gives no step there. Safe: nothing is proved of a step
  that does not exist (log 5). -/
  | engineIdle
  /-- Raised by `step` while the status is halted: R91 gives no step there. Safe (log 5). -/
  | engineHalted
deriving DecidableEq, Repr

/-- What the machine refuses. Only `step`'s dispatch could name the first; the host operations raise the
others, and each leaves the state as it was (R169). -/
inductive Refusal where
  /-- Raised by an arm of `exec` that has no meaning yet; no arm does. Safe. -/
  | notModelled (mnemonic : String)
  /-- Raised by CONSTRUCT for parameters outside R180's ranges; creates no instance. Safe. -/
  | badParameters
  /-- DUPLICATE_LABEL, raised by LOAD (R88). Safe. -/
  | duplicateLabel (name : Text)
  /-- BAD_REGISTRATION, raised by REGISTER_LABEL (R89). Safe. -/
  | badRegistration (name : Text) (position : Int)
  /-- Raised by LOAD, REGISTER_LABEL and RUN while the engine is running, where the host does not invoke
  them (R85; log 9). Safe. -/
  | engineRunning
deriving DecidableEq, Repr

/-- OUT of R40: the printed lines in execution order. -/
def State.out (s : State) : List Text :=
  s.trace.filterMap (fun e => match e with | .out line => some line | .err _ => none)

/-- ERR of R41: the fault records in execution order. -/
def State.err (s : State) : List FaultRecord :=
  s.trace.filterMap (fun e => match e with | .out _ => none | .err record => some record)

/-- The state after CONSTRUCT with parameters p (R181): N registers of 0, no cell stored, SP at M-1, CS,
program, labels and streams empty, pc 0, idle, no halt cause. -/
def State.fresh (p : Params) : State :=
  { params := p, regs := List.replicate p.N 0, heap := [], sp := (p.M : Int) - 1, callStack := [],
    prog := [], labels := [], pc := 0, status := .idle, haltCause := .none, trace := [] }

/-- The machine right after reset, which is construction (R180), with the default parameters. -/
def State.reset : State :=
  State.fresh Params.default

end Sys2Proof.Machine
end

