-- ==== Sys2Proof/Machine/Ops.lean ====
section
/-! DEFINITION. The named operations over registers, heap, labels, streams and pc, and the two halts. -/

namespace Sys2Proof.Machine

/-! ## Ordered tables (the heap and the label table) -/

section Tables
variable {κ ν : Type} [DecidableEq κ] [LT κ] [DecidableLT κ]

/-- The entry of a key, if it has one. -/
def tableGet (k : κ) : List (κ × ν) → Option ν
  | [] => none
  | (k', v) :: rest => if k = k' then some v else tableGet k rest

/-- Set the entry of a key, in its place by rising key. -/
def tableSet (k : κ) (v : ν) : List (κ × ν) → List (κ × ν)
  | [] => [(k, v)]
  | (k', v') :: rest =>
    if k = k' then (k, v) :: rest
    else if k < k' then (k, v) :: (k', v') :: rest
    else (k', v') :: tableSet k v rest

end Tables

/-! ## Registers (R20 to R22) -/

/-- `x[r]`, if the machine has the register. -/
def State.readReg (s : State) (r : Reg) : Option Word :=
  s.regs[r.val]?

/-- `x[r] <- v` (R15). -/
def State.writeReg (s : State) (r : Reg) (v : Word) : State :=
  { s with regs := s.regs.set r.val v }

/-! ## Heap (R47 to R49) -/

/-- The cell an address names, if it is in [0, M) (R48, R53). -/
def heapCell? (p : Params) (addr : Int) : Option Nat :=
  if 0 ≤ addr ∧ addr < (p.M : Int) then some addr.toNat else none

/-- `MemRead(a, 1)` of R48: the Word last stored, or `heap0(a)`. -/
def State.memRead (s : State) (a : Nat) : Word :=
  (tableGet a s.heap).getD (s.params.heap0 a)

/-- `MemWrite(a, 1, v)` of R49. -/
def State.memWrite (s : State) (a : Nat) (v : Word) : State :=
  { s with heap := tableSet a v s.heap }

/-! ## Labels, pc and output -/

/-- `lookup(name)` (R15, R130). -/
def State.lookup (s : State) (name : Text) : Option Nat :=
  tableGet name s.labels

/-- `pc <- target`. -/
def State.setPc (s : State) (target : Nat) : State :=
  { s with pc := target }

/-- `emit_out(text)` (R40). -/
def State.emitOut (s : State) (line : Text) : State :=
  { s with trace := s.trace ++ [.out line] }

/-! ## Fetch and the two halts -/

/-- The line at pc, `none` where `pc >= L` (R92). -/
def State.fetch (s : State) : Option Text :=
  s.prog[s.pc]?

/-- `pc <- pc + 1`, the part of a fetch that comes before decoding (R92). -/
def State.advance (s : State) : State :=
  s.setPc (s.pc + 1)

/-- The normal halt of R95. -/
def State.normalHalt (s : State) : State :=
  { s with status := .halted, haltCause := .normal }

/-- The record of a fault (R165, R166). A fault is raised after the fetch and before pc is overridden, so the
faulting position p is pc - 1 (R35, R92; log 11). -/
def State.faultRecord (s : State) (cause : FaultCause) : FaultRecord :=
  { cause := cause, position := s.pc - 1, line := s.prog.getD (s.pc - 1) [] }

/-- The fault halt of R165, the machine's one way of taking a fault: append the record to ERR, halt with it
as the cause, change nothing else (R164). -/
def State.faultHalt (s : State) (cause : FaultCause) : State :=
  { s with
    trace := s.trace ++ [.err (s.faultRecord cause)]
    status := .halted
    haltCause := .fault (s.faultRecord cause) }

/-- `raise Fault(code, info)` (R15): the fault halt is the step's next state (log 6). -/
def State.raise (s : State) (cause : FaultCause) : Host.Outcome State Fault Refusal :=
  .next (s.faultHalt cause)

/-! ## Putting one line where the next step fetches -/

/-- The program with this line at position n; positions before it that did not exist hold empty lines. -/
def lineAt : Nat → Text → List Text → List Text
  | 0, line, [] => [line]
  | 0, line, _ :: rest => line :: rest
  | n + 1, line, [] => [] :: lineAt n line []
  | n + 1, line, l :: rest => l :: lineAt n line rest

end Sys2Proof.Machine
end

