-- ==== Sys2Proof/Machine/Operands.lean ====
section
/-! DEFINITION. The operand forms: register operands, label targets, heap addresses, and which instruction
reads or writes which of them (R22). -/

namespace Sys2Proof.Machine

/-- A register operand. The decoder has checked the index (R24, R79); where it is called on an index that is
no register of the machine, the register's own fault is taken (R79; log 12). -/
def State.withReg (s : State) (r : Reg) (use : Word → Host.Outcome State Fault Refusal) :
    Host.Outcome State Fault Refusal :=
  match s.readReg r with
  | some v => use v
  | none => s.raise (.registerOutOfRange r)

/-- Two register operands, both read from the state before the instruction (R114, R123). -/
def State.withRegs (s : State) (r1 r2 : Reg) (use : Word → Word → Host.Outcome State Fault Refusal) :
    Host.Outcome State Fault Refusal :=
  s.withReg r1 fun a => s.withReg r2 fun b => use a b

/-- The form "r1 := r1 op r2" of the two-register instructions that raise no fault. -/
def State.binary (s : State) (op : Params → Word → Word → Word) (r1 r2 : Reg) :
    Host.Outcome State Fault Refusal :=
  s.withRegs r1 r2 fun a b => .next (s.writeReg r1 (op s.params a b))

/-- A label operand, resolved when the instruction executes (R130). -/
def State.withTarget (s : State) (name : Text) (use : Nat → Host.Outcome State Fault Refusal) :
    Host.Outcome State Fault Refusal :=
  match s.lookup name with
  | some target => use target
  | none => s.raise (.undefinedLabel name)

/-- An address operand, validated before use (R48). -/
def State.withCell (s : State) (addr : Int) (use : Nat → Host.Outcome State Fault Refusal) :
    Host.Outcome State Fault Refusal :=
  match heapCell? s.params addr with
  | some a => use a
  | none => s.raise (.heapAddressOutOfRange addr)

/-- The register an instruction writes, its first register operand (R22); `none` for one that writes no
register. -/
def destReg : Instr → Option Reg
  | .mov rd _ => some rd
  | .add r1 _ => some r1
  | .sub r1 _ => some r1
  | .mul r1 _ => some r1
  | .div r1 _ => some r1
  | .mod r1 _ => some r1
  | .exp r1 _ => some r1
  | .gt r1 _ => some r1
  | .lt r1 _ => some r1
  | .eq r1 _ => some r1
  | .load r _ => some r
  | .print _ => none
  | .jmp _ => none
  | .jeq _ _ _ => none
  | .call _ => none
  | .ret => none
  | .alloc _ => none
  | .store _ _ => none
  | .label _ => none

/-- The register operands of an instruction, in the order its line names them (R22). -/
def regOperands : Instr → List Reg
  | .mov rd _ => [rd]
  | .add r1 r2 => [r1, r2]
  | .sub r1 r2 => [r1, r2]
  | .mul r1 r2 => [r1, r2]
  | .div r1 r2 => [r1, r2]
  | .mod r1 r2 => [r1, r2]
  | .exp r1 r2 => [r1, r2]
  | .gt r1 r2 => [r1, r2]
  | .lt r1 r2 => [r1, r2]
  | .eq r1 r2 => [r1, r2]
  | .print r => [r]
  | .jmp _ => []
  | .jeq r1 r2 _ => [r1, r2]
  | .call _ => []
  | .ret => []
  | .alloc _ => []
  | .store r _ => [r]
  | .load r _ => [r]
  | .label _ => []

/-- The faults an instruction may raise when it executes on registers the machine has: the "raised by"
column of R161 with R162's ten instructions raising none. -/
def executeFaults : Instr → List FaultCause
  | .div _ r2 => [.divideByZero r2]
  | .mod _ r2 => [.moduloByZero r2]
  | .jmp name => [.undefinedLabel name]
  | .jeq _ _ name => [.undefinedLabel name]
  | .call name => [.undefinedLabel name, .callStackOverflow name]
  | .ret => [.callStackEmpty]
  | .alloc size => [.outOfMemory size]
  | .store _ addr => [.heapAddressOutOfRange addr]
  | .load _ addr => [.heapAddressOutOfRange addr]
  | .mov _ _ => []
  | .add _ _ => []
  | .sub _ _ => []
  | .mul _ _ => []
  | .exp _ _ => []
  | .gt _ _ => []
  | .lt _ _ => []
  | .eq _ _ => []
  | .print _ => []
  | .label _ => []

/-- The heap cell an instruction stores to (R25: only `STORE` writes the heap), by the function its meaning
uses. -/
def storeCell (p : Params) : Instr → Option Nat
  | .store _ addr => heapCell? p addr
  | .mov _ _ => none
  | .add _ _ => none
  | .sub _ _ => none
  | .mul _ _ => none
  | .div _ _ => none
  | .mod _ _ => none
  | .exp _ _ => none
  | .gt _ _ => none
  | .lt _ _ => none
  | .eq _ _ => none
  | .print _ => none
  | .jmp _ => none
  | .jeq _ _ _ => none
  | .call _ => none
  | .ret => none
  | .alloc _ => none
  | .load _ _ => none
  | .label _ => none

end Sys2Proof.Machine
end

