-- ==== Sys2Proof/Machine/Arithmetic.lean ====
section
/-! DEFINITION. MOV, ADD, SUB, MUL, DIV, MOD and EXP (41_move_arith.md). -/

namespace Sys2Proof.Machine

/-- `wrap(a + b)` (R106). -/
def addWord (p : Params) (a b : Word) : Word :=
  wrap p.W (a + b)

/-- `wrap(a - b)` (R107). -/
def subWord (p : Params) (a b : Word) : Word :=
  wrap p.W (a - b)

/-- `wrap(a * b)` (R108). -/
def mulWord (p : Params) (a b : Word) : Word :=
  wrap p.W (a * b)

/-- `wrap(tdiv(a, b))` (R109): the quotient rounded toward zero; used for b other than 0. -/
def divWord (p : Params) (a b : Word) : Word :=
  wrap p.W (Int.tdiv a b)

/-- `trem(a, b)` (R110, R15): `a - b * tdiv(a, b)`; used for b other than 0. -/
def modWord (_ : Params) (a b : Word) : Word :=
  a - b * Int.tdiv a b

/-- The power of R111: exact and wrapped for an exponent of 0 or more (0^0 = 1), truncated toward zero for a
negative one, and the free value `exp_zero_neg` (R11, log 3) for 0 to a negative power. -/
def expWord (p : Params) (b e : Word) : Word :=
  if 0 ≤ e then wrap p.W (b ^ e.toNat)
  else if b = 1 then 1
  else if b = -1 then (if e % 2 = 0 then 1 else -1)
  else if b = 0 then p.expZeroNeg
  else 0

/-- MOV (R105). -/
def execMov (rd : Reg) (imm : Word) (s : State) : Host.Outcome State Fault Refusal :=
  s.withReg rd fun _ => .next (s.writeReg rd imm)

/-- ADD (R106). -/
def execAdd (r1 r2 : Reg) (s : State) : Host.Outcome State Fault Refusal :=
  s.binary addWord r1 r2

/-- SUB (R107). -/
def execSub (r1 r2 : Reg) (s : State) : Host.Outcome State Fault Refusal :=
  s.binary subWord r1 r2

/-- MUL (R108). -/
def execMul (r1 r2 : Reg) (s : State) : Host.Outcome State Fault Refusal :=
  s.binary mulWord r1 r2

/-- DIV (R109): fault 4 on a zero divisor. -/
def execDiv (r1 r2 : Reg) (s : State) : Host.Outcome State Fault Refusal :=
  s.withRegs r1 r2 fun a b =>
    if b = 0 then s.raise (.divideByZero r2) else .next (s.writeReg r1 (divWord s.params a b))

/-- MOD (R110): fault 5 on a zero divisor. -/
def execMod (r1 r2 : Reg) (s : State) : Host.Outcome State Fault Refusal :=
  s.withRegs r1 r2 fun a b =>
    if b = 0 then s.raise (.moduloByZero r2) else .next (s.writeReg r1 (modWord s.params a b))

/-- EXP (R111). -/
def execExp (r1 r2 : Reg) (s : State) : Host.Outcome State Fault Refusal :=
  s.binary expWord r1 r2

end Sys2Proof.Machine
end

