-- ==== Sys2Proof/Machine/Flags.lean ====
section
/-! DEFINITION. The machine has no flags (R37): a comparison's truth value is a Word of 1 or 0. -/

namespace Sys2Proof.Machine

/-- `c ? 1 : 0` of R37. -/
def truthWord (c : Bool) : Word :=
  if c then 1 else 0

/-- `(a > b) ? 1 : 0`, signed (R120, R123). -/
def gtWord (_ : Params) (a b : Word) : Word :=
  truthWord (decide (a > b))

/-- `(a < b) ? 1 : 0`, signed (R121, R123). -/
def ltWord (_ : Params) (a b : Word) : Word :=
  truthWord (decide (a < b))

/-- `(a == b) ? 1 : 0` (R122). -/
def eqWord (_ : Params) (a b : Word) : Word :=
  truthWord (decide (a = b))

end Sys2Proof.Machine
end

