-- ==== Sys2Proof/Machine/Compare.lean ====
section
/-! DEFINITION. GT, LT, EQ and PRINT (42_compare_output.md). -/

namespace Sys2Proof.Machine

/-- GT (R120). -/
def execGt (r1 r2 : Reg) (s : State) : Host.Outcome State Fault Refusal :=
  s.binary gtWord r1 r2

/-- LT (R121). -/
def execLt (r1 r2 : Reg) (s : State) : Host.Outcome State Fault Refusal :=
  s.binary ltWord r1 r2

/-- EQ (R122). -/
def execEq (r1 r2 : Reg) (s : State) : Host.Outcome State Fault Refusal :=
  s.binary eqWord r1 r2

/-- The output line of R125: `Register <n>: <value>`. -/
def outputLine (r : Reg) (v : Word) : Text :=
  "Register ".toList ++ dec r.val ++ ": ".toList ++ dec v

/-- PRINT (R124). -/
def execPrint (r : Reg) (s : State) : Host.Outcome State Fault Refusal :=
  s.withReg r fun v => .next (s.emitOut (outputLine r v))

end Sys2Proof.Machine
end

