-- ==== Sys2Proof/Machine/Control.lean ====
section
/-! DEFINITION. LABEL, JMP, JEQ, CALL and RET (43_control.md). pc already holds p + 1 (R92). -/

namespace Sys2Proof.Machine

/-- `CALL_STACK_DEPTH == D and len(CS) == D` of R134. -/
def State.callStackFull (s : State) : Bool :=
  s.params.depth.any (fun d => decide (s.callStack.length = d))

/-- LABEL (R131), R84's `Nop`: no effect of its own; the name is not read. -/
def execLabel (_ : Text) (s : State) : Host.Outcome State Fault Refusal :=
  .next s

/-- JMP (R132). -/
def execJmp (name : Text) (s : State) : Host.Outcome State Fault Refusal :=
  s.withTarget name fun target => .next (s.setPc target)

/-- JEQ (R133): the label is looked up only when the registers are equal. -/
def execJeq (r1 r2 : Reg) (name : Text) (s : State) : Host.Outcome State Fault Refusal :=
  s.withRegs r1 r2 fun a b =>
    if a = b then s.withTarget name fun target => .next (s.setPc target) else .next s

/-- CALL (R134): the label first, then the depth, and only then the push. -/
def execCall (name : Text) (s : State) : Host.Outcome State Fault Refusal :=
  s.withTarget name fun target =>
    if s.callStackFull then s.raise (.callStackOverflow name)
    else .next { s with callStack := s.pc :: s.callStack, pc := target }

/-- RET (R135). -/
def execRet (s : State) : Host.Outcome State Fault Refusal :=
  match s.callStack with
  | [] => s.raise .callStackEmpty
  | target :: rest => .next { s with callStack := rest, pc := target }

end Sys2Proof.Machine
end

