-- ==== Sys2Proof/Machine/HeapOps.lean ====
section
/-! DEFINITION. ALLOC, STORE and LOAD (44_heap_ops.md). -/

namespace Sys2Proof.Machine

/-- ALLOC (R145): accounting on SP only. -/
def execAlloc (size : Nat) (s : State) : Host.Outcome State Fault Refusal :=
  if s.sp - size < 0 then s.raise (.outOfMemory size) else .next { s with sp := s.sp - size }

/-- STORE (R146). -/
def execStore (r : Reg) (addr : Int) (s : State) : Host.Outcome State Fault Refusal :=
  s.withReg r fun v => s.withCell addr fun a => .next (s.memWrite a v)

/-- LOAD (R147). -/
def execLoad (r : Reg) (addr : Int) (s : State) : Host.Outcome State Fault Refusal :=
  s.withReg r fun _ => s.withCell addr fun a => .next (s.writeReg r (s.memRead a))

end Sys2Proof.Machine
end

