-- ==== Sys2Proof/Machine/Dispatch.lean ====
section
/-! DEFINITION. The dispatch table of rule R94. -/

namespace Sys2Proof.Machine

-- R94: from the decoded instruction to the meaning its rule gives, pc already p + 1 (R93)
def exec (i : Instr) (s : State) : Host.Outcome State Fault Refusal :=
  match i with
  | .mov rd imm => Sys2Proof.Machine.execMov rd imm s
  | .add r1 r2 => Sys2Proof.Machine.execAdd r1 r2 s
  | .sub r1 r2 => Sys2Proof.Machine.execSub r1 r2 s
  | .mul r1 r2 => Sys2Proof.Machine.execMul r1 r2 s
  | .div r1 r2 => Sys2Proof.Machine.execDiv r1 r2 s
  | .mod r1 r2 => Sys2Proof.Machine.execMod r1 r2 s
  | .exp r1 r2 => Sys2Proof.Machine.execExp r1 r2 s
  | .gt r1 r2 => Sys2Proof.Machine.execGt r1 r2 s
  | .lt r1 r2 => Sys2Proof.Machine.execLt r1 r2 s
  | .eq r1 r2 => Sys2Proof.Machine.execEq r1 r2 s
  | .print r => Sys2Proof.Machine.execPrint r s
  | .jmp name => Sys2Proof.Machine.execJmp name s
  | .jeq r1 r2 name => Sys2Proof.Machine.execJeq r1 r2 name s
  | .call name => Sys2Proof.Machine.execCall name s
  | .ret => Sys2Proof.Machine.execRet s
  | .alloc size => Sys2Proof.Machine.execAlloc size s
  | .store r addr => Sys2Proof.Machine.execStore r addr s
  | .load r addr => Sys2Proof.Machine.execLoad r addr s
  | .label name => Sys2Proof.Machine.execLabel name s

end Sys2Proof.Machine
end

