-- ==== Sys2Proof/Machine/Step.lean ====
section
/-! DEFINITION. The step of rule R104. -/

namespace Sys2Proof.Machine

/-- The step of R104. It exists exactly while the engine is running (R91); elsewhere the model stops under
a name of its own (log 5). -/
def step (s : State) : Host.Outcome State Fault Refusal :=
  match s.status with
  | .idle => .fault .engineIdle
  | .halted => .fault .engineHalted
  | .running =>
    match s.fetch with
    | none => .next s.normalHalt
    | some line =>
      match decode s.params line with
      | .error cause => s.advance.raise cause
      | .ok i => exec i s.advance

/-- s with the line given as a number at the position the next step fetches, and the engine running, which
the fetch needs (R91; log 7). -/
def State.withFetchWord (s : State) (nbits w : Nat) : State :=
  { s with prog := lineAt s.pc (lineOfWord nbits w) s.prog, status := .running }

end Sys2Proof.Machine
end

