-- ==== Sys2Proof/Machine/HostPort.lean ====
section
/-! DEFINITION. The host's operations (R85 to R90), and a whole run under fuel (R90, R97, R99). -/

namespace Sys2Proof.Machine

/-- CONSTRUCT (R86, R180): a new instance in the reset state, or a refusal that creates none. -/
def construct (p : Params) : Host.Outcome State Fault Refusal :=
  if p.valid then .next (State.fresh p) else .refused .badParameters

/-- The name a line of the F-LBL shape defines, by the test of LOAD's pre-pass (R87). -/
def labelNameOf (line : Text) : Option Text :=
  if 7 ≤ line.length ∧ line.take 6 = "LABEL ".toList then some (line.drop 6) else none

/-- The pre-pass of R87 over the lines from position i on: the label table it builds, or the first name it
finds a second time (R88). -/
def prepass (i : Nat) (labels : LabelTable) : List Text → Except Text LabelTable
  | [] => .ok labels
  | line :: rest =>
    match labelNameOf line with
    | none => prepass (i + 1) labels rest
    | some name =>
      if (tableGet name labels).isSome then .error name
      else prepass (i + 1) (tableSet name i labels) rest

/-- The host invokes LOAD, REGISTER_LABEL and RUN only while the engine is not running (R85; log 9). -/
def State.whenNotRunning (s : State) (act : Host.Outcome State Fault Refusal) :
    Host.Outcome State Fault Refusal :=
  if s.status = .running then .refused .engineRunning else act

/-- LOAD (R87, R88): the program and the label table, and nothing else. -/
def State.hostLoad (s : State) (lines : List Text) : Host.Outcome State Fault Refusal :=
  s.whenNotRunning <|
    match prepass 0 [] lines with
    | .error name => .refused (.duplicateLabel name)
    | .ok labels => .next { s with prog := lines, labels := labels }

/-- REGISTER_LABEL (R89): set one entry, for a non-empty name and a position in [0, L].
DESIGN CHOICE (log 14): it is accepted whenever the engine is not running, as R85 and R89 say, so also before any
LOAD and after a finished run, where D9 and 90_conflicts.md C7 speak of between LOAD and RUN only. -/
def State.hostRegister (s : State) (name : Text) (position : Int) : Host.Outcome State Fault Refusal :=
  s.whenNotRunning <|
    if name ≠ [] ∧ 0 ≤ position ∧ position ≤ (s.prog.length : Int) then
      .next { s with labels := tableSet name position.toNat s.labels }
    else .refused (.badRegistration name position)

/-- What RUN does before the engine's first step (R90). -/
def State.hostRun (s : State) : Host.Outcome State Fault Refusal :=
  s.whenNotRunning <| .next { s with pc := 0, status := .running, haltCause := .none }

/-- The engine under fuel (R90, R99): steps while it runs, at most fuel of them; a halted engine stays as it
is, so a run that has halted is returned to the host unchanged (R97). -/
def engine : Nat → State → State
  | 0, s => s
  | fuel + 1, s =>
    match step s with
    | .next t => engine fuel t
    | .fault _ => s
    | .refused _ => s

end Sys2Proof.Machine
end

