-- ==== Sys2Proof/Safety.lean ====
section
/-! DEFINITION. The invariants and run relations that claims are stated in. -/

namespace Sys2Proof.Machine

/-- The machine has register r (R24). -/
abbrev State.hasReg (s : State) (r : Reg) : Prop := r.val < s.regs.length

/-- Every label's name is non-empty and its position lies in [0, L], and a name has at most one entry
(R33). -/
abbrev State.labelsOk (s : State) : Prop :=
  LabelTable.wf s.labels ∧ ∀ e ∈ s.labels, e.1 ≠ [] ∧ e.2 ≤ s.prog.length

/-- N registers, each holding a Word (R20). -/
abbrev State.regsOk (s : State) : Prop :=
  s.regs.length = s.params.N ∧ ∀ v ∈ s.regs, isWord s.params.W v = true

/-- The heap's list is canonical (log 4) and lists only Words in cells of [0, M) (R25). -/
abbrev State.heapOk (s : State) : Prop :=
  Memory.wf s.heap ∧ ∀ e ∈ s.heap, e.1 < s.params.M ∧ isWord s.params.W e.2 = true

/-- `0 <= SP <= M-1` (R27). -/
abbrev State.spOk (s : State) : Prop :=
  0 ≤ s.sp ∧ s.sp ≤ (s.params.M : Int) - 1

/-- With a bound D the call stack holds at most D entries (R30). -/
abbrev State.depthOk (s : State) : Prop :=
  s.params.depth.all (fun d => decide (s.callStack.length ≤ d)) = true

/-- `halt_cause` is `none` exactly while no run has halted since construction or since the last RUN began
(R36, R39). -/
abbrev State.haltOk (s : State) : Prop :=
  s.haltCause = .none ↔ s.status ≠ .halted

/-- The invariant of the machine: every reachable state meets it. -/
abbrev State.Inv (s : State) : Prop :=
  s.params.valid = true ∧ s.regsOk ∧ s.heapOk ∧ s.spOk ∧ s.labelsOk ∧ s.depthOk ∧ s.haltOk

/-- pc and every saved return address lie in [0, L] (R136). A later LOAD of a shorter program may leave
entries beyond L on CS (R100), so this is no part of `Inv`. -/
abbrev State.controlOk (s : State) : Prop :=
  s.pc ≤ s.prog.length ∧ ∀ r ∈ s.callStack, r ≤ s.prog.length

/-- The run from s reaches t: zero or more steps. -/
inductive Reaches : State → State → Prop where
  | refl (s : State) : Reaches s s
  | tail {s t u : State} : Reaches s t → step t = .next u → Reaches s u

/-- A run has halted on a fault (R39). -/
def State.faulted (s : State) : Prop :=
  ∃ record, s.haltCause = .fault record

/-- A safe run: no state it reaches has halted on a fault. -/
def SafeRun (s : State) : Prop :=
  ∀ t, Reaches s t → ¬ t.faulted

/-- The canonical start state of a claim about a program (R184): CONSTRUCT, LOAD accepted, RUN. -/
def CanonicalStart (p : Params) (lines : List Text) (s : State) : Prop :=
  ∃ c l, construct p = .next c ∧ c.hostLoad lines = .next l ∧ l.hostRun = .next s

end Sys2Proof.Machine
end

