-- ==== Sys2Proof/Certificates/Slice0/Obligations.lean ====
section
/-! DEFINITION. The statements for the provers, from the numbered rules of spec/. -/

open Sys2Proof Sys2Proof.Machine

/-! ## Construction and the host's operations -/

/-- R181: every value CONSTRUCT leaves, for every choice of parameters R180 admits. -/
def Obligations.ConstructGivesResetValues : Prop :=
  ∀ p : Params, p.valid = true → ∃ s, construct p = .next s ∧ s.params = p ∧
    s.regs.length = p.N ∧ (∀ r, r < p.N → s.regs[r]? = some 0) ∧
    (∀ a, a < p.M → s.memRead a = p.heap0 a) ∧
    s.sp = (p.M : Int) - 1 ∧ s.callStack = [] ∧ s.prog = [] ∧ s.labels = [] ∧ s.pc = 0 ∧
    s.status = .idle ∧ s.haltCause = .none ∧ s.out = [] ∧ s.err = []

/-- The parameter ranges of R180 and the refusal outside them; the refusal's name is the model's. -/
def Obligations.ConstructAcceptsExactlyTheRanges : Prop :=
  ∀ p : Params,
    ((∃ s, construct p = .next s) ↔
      (1 ≤ p.N ∧ p.N ≤ 10) ∧ 2 ≤ p.W ∧ (1 ≤ p.M ∧ p.M ≤ 2 ^ (p.W - 1)) ∧ ∀ D, p.depth = some D → 1 ≤ D) ∧
    ((∀ s, construct p ≠ .next s) → construct p = .refused .badParameters)

/-- The reset state is CONSTRUCT with the defaults of R6 to R9: six registers of 0, SP at 99, idle at 0. The
free launch values are taken at draw 0, a DESIGN CHOICE (log 1) nothing here rests on. -/
def Obligations.ResetIsDefaultConstruction : Prop :=
  ∃ s, construct { N := 6, M := 100, W := 32, depth := none, draw := 0 } = .next s ∧ State.reset = s ∧
    s.regs = [0, 0, 0, 0, 0, 0] ∧ s.sp = 99 ∧ s.callStack = [] ∧ s.pc = 0 ∧ s.status = .idle

/-- R87: an accepted LOAD replaces the program, changes nothing but program and labels, and maps a name to
exactly the positions of its `LABEL` line. -/
def Obligations.LoadReplacesProgramAndLabels : Prop :=
  ∀ (s t : State) (lines : List Text), s.hostLoad lines = .next t →
    t = { s with prog := lines, labels := t.labels } ∧
    ∀ (name : Text) (i : Nat),
      t.lookup name = some i ↔ name ≠ [] ∧ lines[i]? = some ("LABEL ".toList ++ name)

/-- R88: while the engine is not running, LOAD is refused with DUPLICATE_LABEL and a name that two lines
define, whenever two lines define the same name, and is accepted otherwise. -/
def Obligations.LoadRefusesDuplicateLabels : Prop :=
  ∀ (s : State) (lines : List Text), s.status ≠ .running →
    (∀ name, s.hostLoad lines = .refused (.duplicateLabel name) →
      ∃ i j : Nat, i < j ∧ name ≠ [] ∧
        lines[i]? = some ("LABEL ".toList ++ name) ∧ lines[j]? = some ("LABEL ".toList ++ name)) ∧
    (∀ (i j : Nat) (name : Text), i < j → name ≠ [] → lines[i]? = some ("LABEL ".toList ++ name) →
      lines[j]? = some ("LABEL ".toList ++ name) →
      ∃ found, s.hostLoad lines = .refused (.duplicateLabel found)) ∧
    ((∀ name, s.hostLoad lines ≠ .refused (.duplicateLabel name)) → ∃ t, s.hostLoad lines = .next t)

/-- R89: REGISTER_LABEL sets one entry and leaves every other, or is refused; a later LOAD discards what was
registered. That this holds before any LOAD and after a finished run too, and not only between LOAD and RUN, is
the model's choice (log 14). -/
def Obligations.RegisterSetsOneLabel : Prop :=
  ∀ (s : State) (name : Text) (p : Int), s.status ≠ .running →
    (name ≠ [] → 0 ≤ p → p ≤ (s.prog.length : Int) →
      ∃ t, s.hostRegister name p = .next t ∧ t = { s with labels := t.labels } ∧
        t.lookup name = some p.toNat ∧ (∀ other, other ≠ name → t.lookup other = s.lookup other) ∧
        ∀ lines u v, t.hostLoad lines = .next u → s.hostLoad lines = .next v → u.labels = v.labels) ∧
    (name = [] ∨ p < 0 ∨ (s.prog.length : Int) < p →
      s.hostRegister name p = .refused (.badRegistration name p))

/-- R90: what RUN does before the first step, from idle and from halted. -/
def Obligations.RunSetsOnlyPcStatusCause : Prop :=
  ∀ s : State, s.status = .idle ∨ s.status = .halted →
    s.hostRun = .next { s with pc := 0, status := .running, haltCause := .none }

/-- R85 lets the host act only while the engine is not running; the model's refusal by name is its own
choice (log 9). -/
def Obligations.HostActsOnlyBetweenRuns : Prop :=
  ∀ s : State, s.status = .running →
    (∀ lines, s.hostLoad lines = .refused .engineRunning) ∧
    (∀ name p, s.hostRegister name p = .refused .engineRunning) ∧ s.hostRun = .refused .engineRunning

/-! ## Encoding -/

/-- Lines written out from the format tables, one for each family and shape. -/
def Obligations.SampleLinesDecode : Prop :=
  decode Params.default "MOV R0 -5".toList = .ok (.mov 0 (-5)) ∧
  decode Params.default "MUL R0 R1".toList = .ok (.mul 0 1) ∧
  decode Params.default "GT R2 R3".toList = .ok (.gt 2 3) ∧
  decode Params.default "PRINT R5".toList = .ok (.print 5) ∧
  decode Params.default "JEQ R1 R2 done".toList = .ok (.jeq 1 2 "done".toList) ∧
  decode Params.default "CALL f".toList = .ok (.call "f".toList) ∧
  decode Params.default "RET".toList = .ok .ret ∧
  decode Params.default "ALLOC 10".toList = .ok (.alloc 10) ∧
  decode Params.default "STORE R0 99".toList = .ok (.store 0 99) ∧
  decode Params.default "LABEL loop".toList = .ok (.label "loop".toList)

/-- Decoding the line of a well-formed instruction gives it back, under every choice of parameters, for all
nineteen keywords and every operand. -/
def Obligations.DecodeEncodeAgree : Prop :=
  ∀ (p : Params) (i : Instr), i.wf p = true → decode p (encode i) = .ok i

/-- The decoder accepts exactly the lines of the nine format tables, and reads each as the instruction its
table spells, with fields in the ranges of R84. -/
def Obligations.DecoderAcceptsExactlyTheFormats : Prop :=
  ∀ (p : Params) (line : Text) (i : Instr), decode p line = .ok i ↔ spells line i ∧ i.wf p = true

/-- R64: the integer field is `-?[0-9]+` and has the value it spells in decimal. -/
def Obligations.IntegerFieldSyntax : Prop :=
  ∀ (t : Text) (v : Int), parseInteger t = some v ↔
    ∃ ds : Text, ds ≠ [] ∧ (∀ c ∈ ds, '0'.toNat ≤ c.toNat ∧ c.toNat ≤ '9'.toNat) ∧
      ((t = ds ∧ v = (ds.foldl (fun n c => 10 * n + (c.toNat - '0'.toNat)) 0 : Nat)) ∨
        (t = '-' :: ds ∧ v = -(ds.foldl (fun n c => 10 * n + (c.toNat - '0'.toNat)) 0 : Nat)))

/-- R80's first class: a line whose keyword is none of the nineteen, and only such a line, faults with code
1 and its keyword. -/
def Obligations.UnknownKeywordFaults : Prop :=
  ∀ (p : Params) (line kw : Text), decode p line = .error (.unknownOpcode kw) ↔
    kw = line.takeWhile (· != ' ') ∧ ∀ k : Keyword, k.text ≠ kw

/-- R80's third class with R75's order: a register digit of N or more faults with code 3, the first such
digit of a line that every earlier check passes. -/
def Obligations.RegisterRangeFaults : Prop :=
  ∀ (p : Params) (line : Text) (d : Reg), decode p line = .error (.registerOutOfRange d) ↔
    ∃ i, spells line i ∧ i.wf { p with N := 10 } = true ∧
      (regOperands i).find? (fun r => decide (p.N ≤ r.val)) = some d

/-- R80's second class: a known keyword on a line that spells no instruction whose integer and label fields
are in range faults with code 2 and the line. -/
def Obligations.MalformedLineFaults : Prop :=
  ∀ (p : Params) (line bad : Text), decode p line = .error (.malformedOperand bad) ↔
    bad = line ∧ (∃ k : Keyword, k.text = line.takeWhile (· != ' ')) ∧
      ∀ i, spells line i → i.wf { p with N := 10 } = false

/-- R81: every line yields one decoded instruction or one of the three decode faults. -/
def Obligations.DecoderIsTotal : Prop :=
  ∀ (p : Params) (line : Text), (∃ i, decode p line = .ok i) ∨
    ∃ c, decode p line = .error c ∧ c.cls = .decode ∧ (c.code = 1 ∨ c.code = 2 ∨ c.code = 3)

/-- R125: a value prints as an optional `-` and decimal digits with no leading zeros, and names its
value. -/
def Obligations.DecimalTextIsCanonical : Prop :=
  ∀ v : Int, parseInteger (dec v) = some v ∧ ((dec v).head? = some '-' ↔ v < 0) ∧
    ∃ c ds, (dec v = c :: ds ∨ dec v = '-' :: c :: ds) ∧ c.isDigit = true ∧ (c = '0' → v = 0 ∧ ds = [])

/-! ## The step -/

/-- R92 and R93: a running engine executes the decoded line at pc with pc already advanced. -/
def Obligations.StepRunsDecodedInstruction : Prop :=
  ∀ (s : State) (line : Text) (i : Instr), s.status = .running → s.prog[s.pc]? = some line →
    decode s.params line = .ok i → step s = exec i { s with pc := s.pc + 1 }

/-- R95: the normal halt. -/
def Obligations.StepPastProgramHaltsNormally : Prop :=
  ∀ s : State, s.status = .running → s.prog.length ≤ s.pc →
    step s = .next { s with status := .halted, haltCause := .normal }

/-- R93 with R165: a decode fault enters the fault halt with the fetched line's position. -/
def Obligations.StepOnIllegalLineFaultHalts : Prop :=
  ∀ (s : State) (line : Text) (c : FaultCause), s.status = .running → s.prog[s.pc]? = some line →
    decode s.params line = .error c →
    step s = .next { s with
      pc := s.pc + 1
      trace := s.trace ++ [.err { cause := c, position := s.pc, line := line }]
      status := .halted
      haltCause := .fault { cause := c, position := s.pc, line := line } }

/-- R91: there is a step exactly while the engine is running. -/
def Obligations.StepExistsExactlyWhileRunning : Prop :=
  ∀ s : State, (∃ t, step s = .next t) ↔ s.status = .running

/-- R98 with R95 and R165: a step of a running engine leaves it running, or is one of the two halts. A fault
halt changes pc by its fetch, ERR by its record, status and halt cause, and nothing else (R164). -/
def Obligations.RunningEndsOnlyInTheTwoHalts : Prop :=
  ∀ s t : State, step s = .next t →
    (t.status = .running ∧ t.haltCause = s.haltCause ∧ s.pc < s.prog.length) ∨
    (s.prog.length ≤ s.pc ∧ t = { s with status := .halted, haltCause := .normal }) ∨
    ∃ line c, s.prog[s.pc]? = some line ∧ t = { s with
      pc := s.pc + 1
      trace := s.trace ++ [.err { cause := c, position := s.pc, line := line }]
      status := .halted
      haltCause := .fault { cause := c, position := s.pc, line := line } }

/-- R165 for a fault of the execute part: the record holds the cause, the line's position pc - 1 and its
text, and nothing else changes. The position's form is DEDUCED from R35 and R92 (log 11). -/
def Obligations.ExecuteFaultHaltsPrecisely : Prop :=
  ∀ (s : State) (p : Nat) (line : Text) (c : FaultCause), s.pc = p + 1 → s.prog[p]? = some line →
    s.raise c = .next { s with
      trace := s.trace ++ [.err { cause := c, position := p, line := line }]
      status := .halted
      haltCause := .fault { cause := c, position := p, line := line } }

/-- R161's "raised by" column and R162: on registers the machine has, an instruction either has no fault and
leaves ERR, status and halt cause alone, or takes the fault halt with a cause of its own row. -/
def Obligations.EachInstructionRaisesOnlyItsFaults : Prop :=
  ∀ (i : Instr) (s t : State), (∀ r ∈ regOperands i, s.hasReg r) → exec i s = .next t →
    (t.err = s.err ∧ t.status = s.status ∧ t.haltCause = s.haltCause) ∨
    ∃ c ∈ executeFaults i, t = s.faultHalt c

/-! ## Move and arithmetic -/

/-- R105: the value MOV writes, its line, and its decode faults. -/
def Obligations.MovLoadsImmediate : Prop :=
  (∀ (rd : Reg) (imm : Int) (s : State), s.hasReg rd →
    exec (.mov rd imm) s = .next { s with regs := s.regs.set rd.val imm }) ∧
  ∀ (p : Params) (rd : Reg) (t : Text),
    (∀ v, parseInteger t = some v → isWord p.W v = true → rd.val < p.N →
      decode p ("MOV R".toList ++ [Nat.digitChar rd.val, ' '] ++ t) = .ok (.mov rd v)) ∧
    ((∀ v, parseInteger t = some v → isWord p.W v = false) →
      decode p ("MOV R".toList ++ [Nat.digitChar rd.val, ' '] ++ t) =
        .error (.malformedOperand ("MOV R".toList ++ [Nat.digitChar rd.val, ' '] ++ t))) ∧
    (∀ v, parseInteger t = some v → isWord p.W v = true → p.N ≤ rd.val →
      decode p ("MOV R".toList ++ [Nat.digitChar rd.val, ' '] ++ t) = .error (.registerOutOfRange rd))

/-- R106: ADD, with its line; r1 and r2 may be the same register. -/
def Obligations.AddWritesWrappedSum : Prop :=
  ∀ (r1 r2 : Reg) (s : State) (a b : Int), s.readReg r1 = some a → s.readReg r2 = some b →
    exec (.add r1 r2) s = .next { s with regs := s.regs.set r1.val (wrap s.params.W (a + b)) } ∧
    encode (.add r1 r2) = "ADD R".toList ++ [Nat.digitChar r1.val, ' ', 'R', Nat.digitChar r2.val]

/-- R107: SUB, with its line. -/
def Obligations.SubWritesWrappedDifference : Prop :=
  ∀ (r1 r2 : Reg) (s : State) (a b : Int), s.readReg r1 = some a → s.readReg r2 = some b →
    exec (.sub r1 r2) s = .next { s with regs := s.regs.set r1.val (wrap s.params.W (a - b)) } ∧
    encode (.sub r1 r2) = "SUB R".toList ++ [Nat.digitChar r1.val, ' ', 'R', Nat.digitChar r2.val]

/-- R108: MUL, with its line. -/
def Obligations.MulWritesWrappedProduct : Prop :=
  ∀ (r1 r2 : Reg) (s : State) (a b : Int), s.readReg r1 = some a → s.readReg r2 = some b →
    exec (.mul r1 r2) s = .next { s with regs := s.regs.set r1.val (wrap s.params.W (a * b)) } ∧
    encode (.mul r1 r2) = "MUL R".toList ++ [Nat.digitChar r1.val, ' ', 'R', Nat.digitChar r2.val]

/-- R109: DIV, the quotient rounded toward zero and wrapped, fault 4 on a zero divisor, with its line. -/
def Obligations.DivWritesTruncatedQuotient : Prop :=
  ∀ (r1 r2 : Reg) (s : State) (a b : Int), s.readReg r1 = some a → s.readReg r2 = some b →
    (b ≠ 0 → exec (.div r1 r2) s =
      .next { s with regs := s.regs.set r1.val (wrap s.params.W (Int.tdiv a b)) }) ∧
    (b = 0 → exec (.div r1 r2) s = .next (s.faultHalt (.divideByZero r2))) ∧
    encode (.div r1 r2) = "DIV R".toList ++ [Nat.digitChar r1.val, ' ', 'R', Nat.digitChar r2.val]

/-- R110: MOD, the remainder of the truncated quotient, fault 5 on a zero divisor, with its line. -/
def Obligations.ModWritesTruncatedRemainder : Prop :=
  ∀ (r1 r2 : Reg) (s : State) (a b : Int), s.readReg r1 = some a → s.readReg r2 = some b →
    (b ≠ 0 → exec (.mod r1 r2) s =
      .next { s with regs := s.regs.set r1.val (a - b * Int.tdiv a b) }) ∧
    (b = 0 → exec (.mod r1 r2) s = .next (s.faultHalt (.moduloByZero r2))) ∧
    encode (.mod r1 r2) = "MOD R".toList ++ [Nat.digitChar r1.val, ' ', 'R', Nat.digitChar r2.val]

/-- R111: EXP in its five cases, the last with the draw of R11 (a free value, log 3), with its line. -/
def Obligations.ExpWritesPower : Prop :=
  ∀ (r1 r2 : Reg) (s : State) (b e : Int), s.readReg r1 = some b → s.readReg r2 = some e →
    (0 ≤ e → exec (.exp r1 r2) s = .next { s with regs := s.regs.set r1.val (wrap s.params.W (b ^ e.toNat)) }) ∧
    (e < 0 → b = 1 → exec (.exp r1 r2) s = .next { s with regs := s.regs.set r1.val 1 }) ∧
    (e < 0 → b = -1 → e % 2 = 0 → exec (.exp r1 r2) s = .next { s with regs := s.regs.set r1.val 1 }) ∧
    (e < 0 → b = -1 → e % 2 = 1 → exec (.exp r1 r2) s = .next { s with regs := s.regs.set r1.val (-1) }) ∧
    (e < 0 → 2 ≤ b ∨ b ≤ -2 → exec (.exp r1 r2) s = .next { s with regs := s.regs.set r1.val 0 }) ∧
    (e < 0 → b = 0 →
      exec (.exp r1 r2) s = .next { s with regs := s.regs.set r1.val s.params.expZeroNeg }) ∧
    encode (.exp r1 r2) = "EXP R".toList ++ [Nat.digitChar r1.val, ' ', 'R', Nat.digitChar r2.val]

/-- R13: `wrap(v)` is the one Word congruent to v modulo 2^W. -/
def Obligations.WrapIsTheCongruentWord : Prop :=
  ∀ (W : Nat) (v : Int), 1 ≤ W →
    isWord W (wrap W v) = true ∧ (2 ^ W : Int) ∣ wrap W v - v ∧
    ∀ w : Int, isWord W w = true → (2 ^ W : Int) ∣ w - v → w = wrap W v

/-- R113's identity and R110's bound and sign, of the two values DIV and MOD write. -/
def Obligations.QuotientAndRemainderRebuildDividend : Prop :=
  ∀ (r1 r2 : Reg) (s t u : State) (a b q m : Int), s.readReg r1 = some a → s.readReg r2 = some b →
    isWord s.params.W a = true → b ≠ 0 → 1 ≤ s.params.W →
    exec (.div r1 r2) s = .next t → exec (.mod r1 r2) s = .next u →
    t.readReg r1 = some q → u.readReg r1 = some m →
    wrap s.params.W (b * q + m) = a ∧ m.natAbs < b.natAbs ∧ (m ≠ 0 → (0 < m ↔ 0 < a))

/-- Decision D4: the wrapped power of a non-negative exponent equals that many MULs from 1. -/
def Obligations.ExpEqualsRepeatedMul : Prop :=
  ∀ (p : Params) (b : Int) (n : Nat), 2 ≤ p.W →
    expWord p b n = (fun acc => mulWord p acc b)^[n] 1

/-! ## Comparison and output -/

/-- R120, R121 and R122: 1 or 0 by the signed comparison, with the lines. -/
def Obligations.ComparisonsWriteOneOrZero : Prop :=
  ∀ (r1 r2 : Reg) (s : State) (a b : Int), s.readReg r1 = some a → s.readReg r2 = some b →
    exec (.gt r1 r2) s = .next { s with regs := s.regs.set r1.val (if a > b then 1 else 0) } ∧
    exec (.lt r1 r2) s = .next { s with regs := s.regs.set r1.val (if a < b then 1 else 0) } ∧
    exec (.eq r1 r2) s = .next { s with regs := s.regs.set r1.val (if a = b then 1 else 0) } ∧
    encode (.gt r1 r2) = "GT R".toList ++ [Nat.digitChar r1.val, ' ', 'R', Nat.digitChar r2.val] ∧
    encode (.lt r1 r2) = "LT R".toList ++ [Nat.digitChar r1.val, ' ', 'R', Nat.digitChar r2.val] ∧
    encode (.eq r1 r2) = "EQ R".toList ++ [Nat.digitChar r1.val, ' ', 'R', Nat.digitChar r2.val]

/-- R124: PRINT appends the line of R125 to OUT and changes nothing else, with its line. -/
def Obligations.PrintAppendsRegisterLine : Prop :=
  ∀ (r : Reg) (s : State) (v : Int), s.readReg r = some v →
    (∃ t, exec (.print r) s = .next t ∧ t = { s with trace := t.trace } ∧ t.err = s.err ∧
      t.out = s.out ++ ["Register ".toList ++ [Nat.digitChar r.val] ++ ": ".toList ++ dec v]) ∧
    encode (.print r) = "PRINT R".toList ++ [Nat.digitChar r.val]

/-! ## Labels and control transfer -/

/-- R131: a LABEL line's only effect is the pc increment of its fetch; an empty name is fault 2 and defines
no label. -/
def Obligations.LabelLineOnlyAdvancesPc : Prop :=
  (∀ (name : Text) (s : State), exec (.label name) s = .next s) ∧
  (∀ (name : Text) (s : State), s.status = .running → name ≠ [] →
    s.prog[s.pc]? = some ("LABEL ".toList ++ name) → step s = .next { s with pc := s.pc + 1 }) ∧
  (∀ p : Params, decode p "LABEL ".toList = .error (.malformedOperand "LABEL ".toList)) ∧
  ∀ (s t : State) (lines : List Text), s.hostLoad lines = .next t → t.lookup [] = none

/-- R132: JMP, with its line. -/
def Obligations.JmpGoesToLabel : Prop :=
  ∀ (name : Text) (s : State),
    (∀ t, s.lookup name = some t → exec (.jmp name) s = .next { s with pc := t }) ∧
    (s.lookup name = none → exec (.jmp name) s = .next (s.faultHalt (.undefinedLabel name))) ∧
    encode (.jmp name) = "JMP ".toList ++ name

/-- R133: JEQ, the label looked up only on equal registers, with its line. -/
def Obligations.JeqGoesToLabelWhenEqual : Prop :=
  ∀ (r1 r2 : Reg) (name : Text) (s : State) (a b : Int), s.readReg r1 = some a → s.readReg r2 = some b →
    (∀ t, a = b → s.lookup name = some t → exec (.jeq r1 r2 name) s = .next { s with pc := t }) ∧
    (a = b → s.lookup name = none →
      exec (.jeq r1 r2 name) s = .next (s.faultHalt (.undefinedLabel name))) ∧
    (a ≠ b → exec (.jeq r1 r2 name) s = .next s) ∧
    encode (.jeq r1 r2 name) =
      "JEQ R".toList ++ [Nat.digitChar r1.val, ' ', 'R', Nat.digitChar r2.val, ' '] ++ name

/-- R134: CALL, the label before the depth and both before the push, with its line. -/
def Obligations.CallPushesReturnAddress : Prop :=
  ∀ (name : Text) (s : State),
    (s.lookup name = none → exec (.call name) s = .next (s.faultHalt (.undefinedLabel name))) ∧
    (∀ t D, s.lookup name = some t → s.params.depth = some D → s.callStack.length = D →
      exec (.call name) s = .next (s.faultHalt (.callStackOverflow name))) ∧
    (∀ t, s.lookup name = some t → (∀ D, s.params.depth = some D → s.callStack.length ≠ D) →
      exec (.call name) s = .next { s with callStack := s.pc :: s.callStack, pc := t }) ∧
    encode (.call name) = "CALL ".toList ++ name

/-- R135: RET, with its line. -/
def Obligations.RetPopsReturnAddress : Prop :=
  ∀ s : State,
    (s.callStack = [] → exec .ret s = .next (s.faultHalt .callStackEmpty)) ∧
    (∀ t rest, s.callStack = t :: rest → exec .ret s = .next { s with callStack := rest, pc := t }) ∧
    encode .ret = "RET".toList

/-- R138: the RET that finds the stack a CALL left returns to the instruction after that CALL and leaves the
stack the CALL found, whatever ran in between. -/
def Obligations.RetReturnsAfterItsCall : Prop :=
  ∀ (name : Text) (s t u : State), exec (.call name) s = .next t → t.err = s.err →
    u.callStack = t.callStack → exec .ret u = .next { u with callStack := s.callStack, pc := s.pc }

/-! ## Heap -/

/-- R145: ALLOC, with its line. -/
def Obligations.AllocLowersPointer : Prop :=
  ∀ (size : Nat) (s : State),
    (0 ≤ s.sp - size → exec (.alloc size) s = .next { s with sp := s.sp - size }) ∧
    (s.sp - size < 0 → exec (.alloc size) s = .next (s.faultHalt (.outOfMemory size))) ∧
    encode (.alloc size) = "ALLOC ".toList ++ Nat.toDigits 10 size

/-- R146: STORE writes the register to the one cell its address names and changes nothing else, or is fault
8, with its line. -/
def Obligations.StoreWritesOneCell : Prop :=
  ∀ (r : Reg) (addr : Int) (s : State) (v : Int), s.readReg r = some v →
    (∀ a : Nat, addr = a → a < s.params.M →
      ∃ t, exec (.store r addr) s = .next t ∧ t.memRead a = v ∧
        (∀ b, b ≠ a → t.memRead b = s.memRead b) ∧ t = { s with heap := t.heap }) ∧
    (addr < 0 ∨ (s.params.M : Int) ≤ addr →
      exec (.store r addr) s = .next (s.faultHalt (.heapAddressOutOfRange addr))) ∧
    encode (.store r addr) = "STORE R".toList ++ [Nat.digitChar r.val, ' '] ++ dec addr

/-- R147: LOAD, with its line; a cell without a stored Word gives `heap0` (a free value, log 2). -/
def Obligations.LoadReadsOneCell : Prop :=
  ∀ (r : Reg) (addr : Int) (s : State), s.hasReg r →
    (∀ a : Nat, addr = a → a < s.params.M →
      exec (.load r addr) s = .next { s with regs := s.regs.set r.val (s.memRead a) } ∧
      (∀ v, tableGet a s.heap = some v → s.memRead a = v) ∧
      (tableGet a s.heap = none → s.memRead a = s.params.heap0 a)) ∧
    (addr < 0 ∨ (s.params.M : Int) ≤ addr →
      exec (.load r addr) s = .next (s.faultHalt (.heapAddressOutOfRange addr))) ∧
    encode (.load r addr) = "LOAD R".toList ++ [Nat.digitChar r.val, ' '] ++ dec addr

/-- R148's first law, over a run: after a STORE, a LOAD of the cell reads the stored Word in every state the
machine reaches from there while no fetched line is a STORE to that cell. -/
def Obligations.LoadAfterRunReadsStoredWord : Prop :=
  ∀ (r q : Reg) (a : Nat) (s : State) (v : Int) (run : Nat → State) (n : Nat),
    s.readReg r = some v → a < s.params.M → exec (.store r a) s = .next (run 0) →
    (∀ k, k < n → step (run k) = .next (run (k + 1)) ∧
      ∀ line i, (run k).prog[(run k).pc]? = some line → decode (run k).params line = .ok i →
        storeCell (run k).params i ≠ some a) →
    (run n).hasReg q →
    exec (.load q a) (run n) = .next { run n with regs := (run n).regs.set q.val v }

/-! ## Frames -/

/-- R22's frame: a register other than the instruction's first register operand, for the instructions R22
names, and every register for the others, reads as before; a fault halt changes no register either. -/
def Obligations.OnlyDestinationRegisterChanges : Prop :=
  ∀ (i : Instr) (s t : State) (r : Reg), exec i s = .next t → destReg i ≠ some r →
    t.readReg r = s.readReg r ∧ t.regs.length = s.regs.length

/-- The heap's frame (R25, R49): every cell but the one a STORE's address names reads as before. -/
def Obligations.OnlyStoredCellChanges : Prop :=
  ∀ (i : Instr) (s t : State) (a : Nat), exec i s = .next t → storeCell s.params i ≠ some a →
    t.memRead a = s.memRead a

/-- The "written by" column of R42: SP only by ALLOC, CS only by CALL and RET, pc only by the transfers,
OUT only by PRINT, program, labels and parameters by no instruction. -/
def Obligations.ControlStateWriters : Prop :=
  ∀ (i : Instr) (s t : State), exec i s = .next t →
    t.params = s.params ∧ t.prog = s.prog ∧ t.labels = s.labels ∧
    ((∀ size, i ≠ .alloc size) → t.sp = s.sp) ∧
    ((∀ name, i ≠ .call name) → i ≠ .ret → t.callStack = s.callStack) ∧
    ((∀ name, i ≠ .jmp name) → (∀ r1 r2 name, i ≠ .jeq r1 r2 name) → (∀ name, i ≠ .call name) →
      i ≠ .ret → t.pc = s.pc) ∧
    ((∀ r, i ≠ .print r) → t.out = s.out)

/-- R28 and R54: SP has no part in any instruction but ALLOC: changing it changes nothing else. -/
def Obligations.AllocationPointerIsIndependent : Prop :=
  ∀ (i : Instr) (s t : State) (x : Int), (∀ size, i ≠ .alloc size) → exec i s = .next t →
    exec i { s with sp := x } = .next { t with sp := x }

/-- R25: the heap's content reaches the rest of the state through LOAD alone. -/
def Obligations.OnlyLoadReadsHeap : Prop :=
  ∀ (i : Instr) (s t : State) (h : Memory), (∀ r addr, i ≠ .load r addr) → exec i s = .next t →
    ∃ h', exec i { s with heap := h } = .next { t with heap := h' } ∧
      (storeCell s.params i = none → h' = h)

/-- The streams are write-only (R42, "read by" host): what was printed before has no part in a step. -/
def Obligations.OutputIsNeverReadBack : Prop :=
  ∀ (s t : State) (earlier : List Event), step s = .next t →
    step { s with trace := earlier ++ s.trace } = .next { t with trace := earlier ++ t.trace }

/-! ## Invariants and whole runs -/

/-- The reset state meets the invariant, and so does every accepted construction. -/
def Obligations.ConstructionMeetsInvariant : Prop :=
  State.reset.Inv ∧ ∀ (p : Params) (s : State), construct p = .next s → s.Inv

/-- Every step keeps the invariant: N Word registers, Words in canonical heap cells of [0, M), SP in
[0, M-1], a label table with names and positions as R33 says, the depth bound, and the halt cause. -/
def Obligations.StepKeepsInvariant : Prop :=
  ∀ s t : State, s.Inv → step s = .next t → t.Inv

/-- Every host operation keeps the invariant. -/
def Obligations.HostOperationsKeepInvariant : Prop :=
  ∀ s t : State, s.Inv →
    (∀ lines, s.hostLoad lines = .next t → t.Inv) ∧
    (∀ name p, s.hostRegister name p = .next t → t.Inv) ∧ (s.hostRun = .next t → t.Inv)

/-- R136: pc and every saved return address stay in [0, L]. -/
def Obligations.StepKeepsControlInProgram : Prop :=
  ∀ s t : State, s.Inv → s.controlOk → step s = .next t → t.controlOk

/-- Every state a run reaches from the canonical start state of R184 meets both invariants, and nothing the
host fixed has changed. -/
def Obligations.CanonicalRunsStayInvariant : Prop :=
  ∀ (p : Params) (lines : List Text) (s t : State), CanonicalStart p lines s → Reaches s t →
    t.Inv ∧ t.controlOk ∧ t.params = p ∧ t.prog = lines ∧ t.labels = s.labels

/-- R41 and R168 with R39: within one run at most one record is appended, exactly at a fault halt, and it is
the halt cause. -/
def Obligations.AtMostOneFaultRecordPerRun : Prop :=
  ∀ s t : State, s.status = .running → s.haltCause = .none → Reaches s t →
    (t.status = .running ∧ t.haltCause = .none ∧ t.err = s.err) ∨
    (t.status = .halted ∧ t.haltCause = .normal ∧ t.err = s.err) ∨
    ∃ record, t.status = .halted ∧ t.haltCause = .fault record ∧ t.err = s.err ++ [record]

/-- R40 and R41: both streams are append-only; and SP never rises during a run (R145). -/
def Obligations.StreamsOnlyGrowAndPointerOnlyFalls : Prop :=
  ∀ s t : State, Reaches s t →
    (∃ lines, t.out = s.out ++ lines) ∧ (∃ records, t.err = s.err ++ records) ∧ t.sp ≤ s.sp

/-- R90, R97 and R99: the engine under fuel takes the machine's steps one after another, and once it has
halted more fuel changes nothing, so RUN returns the halted state. -/
def Obligations.EngineStepsUntilHalted : Prop :=
  ∀ (n m : Nat) (s : State), Reaches s (engine n s) ∧
    ((engine n s).status ≠ .running → engine (n + m) s = engine n s) ∧
    ∀ t, step (engine n s) = .next t → engine (n + 1) s = t
end

