-- ==== Sys2Proof/Laws/Decode.lean ====
section
/-! SUPPORT. Small laws of decimal text, register digits and keywords. -/

namespace Sys2Proof

/-! ## Register digits (R63) -/

@[simp] theorem isDigit_digitChar (r : Reg) : (Nat.digitChar r.val).isDigit = true := by
  revert r; decide

@[simp] theorem digitValue_digitChar (r : Reg) : digitValue (Nat.digitChar r.val) = r := by
  revert r; decide

/-- The ten digit characters are the digits of the ten indices. -/
theorem digitChar_digitValue {c : Char} (h : c.isDigit = true) :
    Nat.digitChar (digitValue c).val = c := by
  simp only [Char.isDigit, Bool.and_eq_true, decide_eq_true_eq] at h
  have h0 : 48 ≤ c.toNat := h.1
  have h9 : c.toNat ≤ 57 := h.2
  have hc : c = Char.ofNat c.toNat := (Char.ofNat_toNat c).symm
  generalize c.toNat = n at h0 h9 hc
  subst hc
  interval_cases n <;> rfl

theorem dec_reg (r : Reg) : dec r.val = [Nat.digitChar r.val] := by
  revert r; decide

/-! ## Decimal text (R64, R125) -/

theorem isDigits_toDigits (n : Nat) : isDigits (Nat.toDigits 10 n) = true := by
  simp only [isDigits, Bool.and_eq_true, List.all_eq_true, Bool.not_eq_true']
  refine ⟨?_, fun c hc => Nat.isDigit_of_mem_toDigits (by omega) (by omega) hc⟩
  cases h : Nat.toDigits 10 n with
  | nil => exact absurd h Nat.toDigits_ne_nil
  | cons c cs => rfl

theorem isDigits_cons {c : Char} {ds : Text} (h : isDigits (c :: ds) = true) : c.isDigit = true := by
  simp [isDigits] at h; exact h.1

/-- A field of digits alone parses as their value. -/
theorem parseInteger_of_digits {t : Text} (h : isDigits t = true) :
    parseInteger t = some (Nat.ofDigitChars 10 t 0 : Int) := by
  have hm : t.head? ≠ some '-' := by
    cases t with
    | nil => simp
    | cons c ds =>
      rintro hc
      obtain rfl : c = '-' := by simpa using hc
      exact absurd (isDigits_cons h) (by decide)
  simp [parseInteger, hm, h]

theorem parseInteger_neg {t : Text} (h : isDigits t = true) :
    parseInteger ('-' :: t) = some (-(Nat.ofDigitChars 10 t 0 : Int)) := by
  simp [parseInteger, h]

/-- The decimal text of a value parses back to it. -/
theorem parseInteger_dec (v : Int) : parseInteger (dec v) = some v := by
  cases v with
  | ofNat n =>
    rw [dec, parseInteger_of_digits (isDigits_toDigits n), Nat.ofDigitChars_toDigits (by omega) (by omega)]
    rfl
  | negSucc n =>
    rw [dec, parseInteger_neg (isDigits_toDigits (n + 1)),
      Nat.ofDigitChars_toDigits (by omega) (by omega)]
    rfl

/-! ## Keywords (R61, R62) -/

@[simp] theorem ofText_text (kw : Keyword) : Keyword.ofText? kw.text = some kw := by
  cases kw <;> decide

theorem text_of_ofText {t : Text} {kw : Keyword} (h : Keyword.ofText? t = some kw) : kw.text = t := by
  simpa using List.find?_some h

theorem ofText_eq_none {t : Text} : Keyword.ofText? t = none ↔ ∀ kw : Keyword, kw.text ≠ t := by
  constructor
  · rintro h kw rfl
    simp at h
  · intro h
    cases hk : Keyword.ofText? t with
    | none => rfl
    | some kw => exact absurd (text_of_ofText hk) (h kw)

/-- A keyword holds no space, so it is the keyword of every line it begins (R61). -/
theorem keywordOf_append (kw : Keyword) (rest : Text) : keywordOf (kw.text ++ ' ' :: rest) = kw.text := by
  cases kw <;> simp [keywordOf, Keyword.text]

/-- A line begins with its keyword. -/
theorem keywordOf_prefix (s : Text) : keywordOf s ++ s.dropWhile (· != ' ') = s :=
  List.takeWhile_append_dropWhile

end Sys2Proof
end

