-- ==== Sys2Proof/Laws/State.lean ====
section
/-! SUPPORT. One lemma for each field under each named update of the state. -/

namespace Sys2Proof.Machine

/-! ### writeReg -/

@[simp] theorem writeReg_params (s : State) (r : Reg) (v : Word) : (s.writeReg r v).params = s.params := rfl
@[simp] theorem writeReg_regs (s : State) (r : Reg) (v : Word) : (s.writeReg r v).regs = s.regs.set r.val v := rfl
@[simp] theorem writeReg_heap (s : State) (r : Reg) (v : Word) : (s.writeReg r v).heap = s.heap := rfl
@[simp] theorem writeReg_sp (s : State) (r : Reg) (v : Word) : (s.writeReg r v).sp = s.sp := rfl
@[simp] theorem writeReg_callStack (s : State) (r : Reg) (v : Word) : (s.writeReg r v).callStack = s.callStack := rfl
@[simp] theorem writeReg_prog (s : State) (r : Reg) (v : Word) : (s.writeReg r v).prog = s.prog := rfl
@[simp] theorem writeReg_labels (s : State) (r : Reg) (v : Word) : (s.writeReg r v).labels = s.labels := rfl
@[simp] theorem writeReg_pc (s : State) (r : Reg) (v : Word) : (s.writeReg r v).pc = s.pc := rfl
@[simp] theorem writeReg_status (s : State) (r : Reg) (v : Word) : (s.writeReg r v).status = s.status := rfl
@[simp] theorem writeReg_haltCause (s : State) (r : Reg) (v : Word) : (s.writeReg r v).haltCause = s.haltCause := rfl
@[simp] theorem writeReg_trace (s : State) (r : Reg) (v : Word) : (s.writeReg r v).trace = s.trace := rfl

/-! ### memWrite -/

@[simp] theorem memWrite_params (s : State) (a : Nat) (v : Word) : (s.memWrite a v).params = s.params := rfl
@[simp] theorem memWrite_regs (s : State) (a : Nat) (v : Word) : (s.memWrite a v).regs = s.regs := rfl
@[simp] theorem memWrite_heap (s : State) (a : Nat) (v : Word) : (s.memWrite a v).heap = tableSet a v s.heap := rfl
@[simp] theorem memWrite_sp (s : State) (a : Nat) (v : Word) : (s.memWrite a v).sp = s.sp := rfl
@[simp] theorem memWrite_callStack (s : State) (a : Nat) (v : Word) : (s.memWrite a v).callStack = s.callStack := rfl
@[simp] theorem memWrite_prog (s : State) (a : Nat) (v : Word) : (s.memWrite a v).prog = s.prog := rfl
@[simp] theorem memWrite_labels (s : State) (a : Nat) (v : Word) : (s.memWrite a v).labels = s.labels := rfl
@[simp] theorem memWrite_pc (s : State) (a : Nat) (v : Word) : (s.memWrite a v).pc = s.pc := rfl
@[simp] theorem memWrite_status (s : State) (a : Nat) (v : Word) : (s.memWrite a v).status = s.status := rfl
@[simp] theorem memWrite_haltCause (s : State) (a : Nat) (v : Word) : (s.memWrite a v).haltCause = s.haltCause := rfl
@[simp] theorem memWrite_trace (s : State) (a : Nat) (v : Word) : (s.memWrite a v).trace = s.trace := rfl

/-! ### setPc -/

@[simp] theorem setPc_params (s : State) (target : Nat) : (s.setPc target).params = s.params := rfl
@[simp] theorem setPc_regs (s : State) (target : Nat) : (s.setPc target).regs = s.regs := rfl
@[simp] theorem setPc_heap (s : State) (target : Nat) : (s.setPc target).heap = s.heap := rfl
@[simp] theorem setPc_sp (s : State) (target : Nat) : (s.setPc target).sp = s.sp := rfl
@[simp] theorem setPc_callStack (s : State) (target : Nat) : (s.setPc target).callStack = s.callStack := rfl
@[simp] theorem setPc_prog (s : State) (target : Nat) : (s.setPc target).prog = s.prog := rfl
@[simp] theorem setPc_labels (s : State) (target : Nat) : (s.setPc target).labels = s.labels := rfl
@[simp] theorem setPc_pc (s : State) (target : Nat) : (s.setPc target).pc = target := rfl
@[simp] theorem setPc_status (s : State) (target : Nat) : (s.setPc target).status = s.status := rfl
@[simp] theorem setPc_haltCause (s : State) (target : Nat) : (s.setPc target).haltCause = s.haltCause := rfl
@[simp] theorem setPc_trace (s : State) (target : Nat) : (s.setPc target).trace = s.trace := rfl

/-! ### advance -/

@[simp] theorem advance_params (s : State) : (s.advance).params = s.params := rfl
@[simp] theorem advance_regs (s : State) : (s.advance).regs = s.regs := rfl
@[simp] theorem advance_heap (s : State) : (s.advance).heap = s.heap := rfl
@[simp] theorem advance_sp (s : State) : (s.advance).sp = s.sp := rfl
@[simp] theorem advance_callStack (s : State) : (s.advance).callStack = s.callStack := rfl
@[simp] theorem advance_prog (s : State) : (s.advance).prog = s.prog := rfl
@[simp] theorem advance_labels (s : State) : (s.advance).labels = s.labels := rfl
@[simp] theorem advance_pc (s : State) : (s.advance).pc = s.pc + 1 := rfl
@[simp] theorem advance_status (s : State) : (s.advance).status = s.status := rfl
@[simp] theorem advance_haltCause (s : State) : (s.advance).haltCause = s.haltCause := rfl
@[simp] theorem advance_trace (s : State) : (s.advance).trace = s.trace := rfl

/-! ### emitOut -/

@[simp] theorem emitOut_params (s : State) (line : Text) : (s.emitOut line).params = s.params := rfl
@[simp] theorem emitOut_regs (s : State) (line : Text) : (s.emitOut line).regs = s.regs := rfl
@[simp] theorem emitOut_heap (s : State) (line : Text) : (s.emitOut line).heap = s.heap := rfl
@[simp] theorem emitOut_sp (s : State) (line : Text) : (s.emitOut line).sp = s.sp := rfl
@[simp] theorem emitOut_callStack (s : State) (line : Text) : (s.emitOut line).callStack = s.callStack := rfl
@[simp] theorem emitOut_prog (s : State) (line : Text) : (s.emitOut line).prog = s.prog := rfl
@[simp] theorem emitOut_labels (s : State) (line : Text) : (s.emitOut line).labels = s.labels := rfl
@[simp] theorem emitOut_pc (s : State) (line : Text) : (s.emitOut line).pc = s.pc := rfl
@[simp] theorem emitOut_status (s : State) (line : Text) : (s.emitOut line).status = s.status := rfl
@[simp] theorem emitOut_haltCause (s : State) (line : Text) : (s.emitOut line).haltCause = s.haltCause := rfl
@[simp] theorem emitOut_trace (s : State) (line : Text) : (s.emitOut line).trace = s.trace ++ [.out line] := rfl

/-! ### normalHalt -/

@[simp] theorem normalHalt_params (s : State) : (s.normalHalt).params = s.params := rfl
@[simp] theorem normalHalt_regs (s : State) : (s.normalHalt).regs = s.regs := rfl
@[simp] theorem normalHalt_heap (s : State) : (s.normalHalt).heap = s.heap := rfl
@[simp] theorem normalHalt_sp (s : State) : (s.normalHalt).sp = s.sp := rfl
@[simp] theorem normalHalt_callStack (s : State) : (s.normalHalt).callStack = s.callStack := rfl
@[simp] theorem normalHalt_prog (s : State) : (s.normalHalt).prog = s.prog := rfl
@[simp] theorem normalHalt_labels (s : State) : (s.normalHalt).labels = s.labels := rfl
@[simp] theorem normalHalt_pc (s : State) : (s.normalHalt).pc = s.pc := rfl
@[simp] theorem normalHalt_status (s : State) : (s.normalHalt).status = .halted := rfl
@[simp] theorem normalHalt_haltCause (s : State) : (s.normalHalt).haltCause = .normal := rfl
@[simp] theorem normalHalt_trace (s : State) : (s.normalHalt).trace = s.trace := rfl

/-! ### faultHalt -/

@[simp] theorem faultHalt_params (s : State) (c : FaultCause) : (s.faultHalt c).params = s.params := rfl
@[simp] theorem faultHalt_regs (s : State) (c : FaultCause) : (s.faultHalt c).regs = s.regs := rfl
@[simp] theorem faultHalt_heap (s : State) (c : FaultCause) : (s.faultHalt c).heap = s.heap := rfl
@[simp] theorem faultHalt_sp (s : State) (c : FaultCause) : (s.faultHalt c).sp = s.sp := rfl
@[simp] theorem faultHalt_callStack (s : State) (c : FaultCause) : (s.faultHalt c).callStack = s.callStack := rfl
@[simp] theorem faultHalt_prog (s : State) (c : FaultCause) : (s.faultHalt c).prog = s.prog := rfl
@[simp] theorem faultHalt_labels (s : State) (c : FaultCause) : (s.faultHalt c).labels = s.labels := rfl
@[simp] theorem faultHalt_pc (s : State) (c : FaultCause) : (s.faultHalt c).pc = s.pc := rfl
@[simp] theorem faultHalt_status (s : State) (c : FaultCause) : (s.faultHalt c).status = .halted := rfl
@[simp] theorem faultHalt_haltCause (s : State) (c : FaultCause) : (s.faultHalt c).haltCause = .fault (s.faultRecord c) := rfl
@[simp] theorem faultHalt_trace (s : State) (c : FaultCause) : (s.faultHalt c).trace = s.trace ++ [.err (s.faultRecord c)] := rfl

/-! ### fresh -/

@[simp] theorem fresh_params (p : Params) : (State.fresh p).params = p := rfl
@[simp] theorem fresh_regs (p : Params) : (State.fresh p).regs = List.replicate p.N 0 := rfl
@[simp] theorem fresh_heap (p : Params) : (State.fresh p).heap = [] := rfl
@[simp] theorem fresh_sp (p : Params) : (State.fresh p).sp = (p.M : Int) - 1 := rfl
@[simp] theorem fresh_callStack (p : Params) : (State.fresh p).callStack = [] := rfl
@[simp] theorem fresh_prog (p : Params) : (State.fresh p).prog = [] := rfl
@[simp] theorem fresh_labels (p : Params) : (State.fresh p).labels = [] := rfl
@[simp] theorem fresh_pc (p : Params) : (State.fresh p).pc = 0 := rfl
@[simp] theorem fresh_status (p : Params) : (State.fresh p).status = .idle := rfl
@[simp] theorem fresh_haltCause (p : Params) : (State.fresh p).haltCause = .none := rfl
@[simp] theorem fresh_trace (p : Params) : (State.fresh p).trace = [] := rfl

/-! ### The streams -/

@[simp] theorem emitOut_out (s : State) (line : Text) : (s.emitOut line).out = s.out ++ [line] := by
  simp [State.out]

@[simp] theorem emitOut_err (s : State) (line : Text) : (s.emitOut line).err = s.err := by
  simp [State.err]

@[simp] theorem faultHalt_out (s : State) (c : FaultCause) : (s.faultHalt c).out = s.out := by
  simp [State.out]

@[simp] theorem faultHalt_err (s : State) (c : FaultCause) :
    (s.faultHalt c).err = s.err ++ [s.faultRecord c] := by
  simp [State.err]

/-- OUT and ERR read the trace alone. -/
theorem out_congr {s t : State} (h : t.trace = s.trace) : t.out = s.out := by
  simp [State.out, h]

theorem err_congr {s t : State} (h : t.trace = s.trace) : t.err = s.err := by
  simp [State.err, h]

end Sys2Proof.Machine
end

