-- ==== Sys2Proof/Laws/Tables.lean ====
section
/-! SUPPORT. The laws of the ordered tables: read after write, other keys, and the canonical form. -/

namespace Sys2Proof.Machine

section Tables
variable {κ ν : Type} [DecidableEq κ] [LT κ] [DecidableLT κ]

/-- A set entry reads back, and every other key reads as before. -/
theorem tableGet_tableSet (k k' : κ) (v : ν) (t : List (κ × ν)) :
    tableGet k' (tableSet k v t) = if k' = k then some v else tableGet k' t := by
  induction t with
  | nil => simp [tableSet, tableGet]
  | cons e rest ih =>
    obtain ⟨k0, v0⟩ := e
    simp only [tableSet]
    split
    · next h => subst h; by_cases hk : k' = k <;> simp [tableGet, hk]
    · split
      · by_cases hk : k' = k <;> simp [tableGet, hk]
      · next h _ =>
        by_cases h0 : k' = k0
        · subst h0; simp [tableGet, Ne.symm h]
        · simp [tableGet, h0, ih]

@[simp] theorem tableGet_tableSet_self (k : κ) (v : ν) (t : List (κ × ν)) :
    tableGet k (tableSet k v t) = some v := by
  simp [tableGet_tableSet]

theorem tableGet_tableSet_ne {k k' : κ} (h : k' ≠ k) (v : ν) (t : List (κ × ν)) :
    tableGet k' (tableSet k v t) = tableGet k' t := by
  simp [tableGet_tableSet, h]

/-- Setting an entry brings in no entry but itself. -/
theorem mem_tableSet {k : κ} {v : ν} {t : List (κ × ν)} {e : κ × ν} (h : e ∈ tableSet k v t) :
    e = (k, v) ∨ e ∈ t := by
  induction t with
  | nil => simpa [tableSet] using h
  | cons e0 rest ih =>
    obtain ⟨k0, v0⟩ := e0
    simp only [tableSet] at h
    split at h
    · rcases List.mem_cons.1 h with h | h <;> simp [h]
    · split at h
      · rcases List.mem_cons.1 h with h | h <;> simp_all
      · rcases List.mem_cons.1 h with h | h
        · simp [h]
        · rcases ih h with h | h <;> simp [h]

omit [LT κ] [DecidableLT κ] in
/-- An entry a table gives is one of its entries. -/
theorem mem_of_tableGet {k : κ} {v : ν} {t : List (κ × ν)} (h : tableGet k t = some v) : (k, v) ∈ t := by
  induction t with
  | nil => simp [tableGet] at h
  | cons e rest ih =>
    obtain ⟨k0, v0⟩ := e
    simp only [tableGet] at h
    split at h
    · next hk => subst hk; simp_all
    · exact List.mem_cons_of_mem _ (ih h)

/-- Setting an entry keeps the keys rising, for an order that is transitive and total. -/
theorem tableSet_rising (trans : ∀ a b c : κ, a < b → b < c → a < c)
    (total : ∀ a b : κ, a ≠ b → ¬ a < b → b < a) (k : κ) (v : ν) (t : List (κ × ν))
    (h : t.Pairwise (fun x y => x.1 < y.1)) : (tableSet k v t).Pairwise (fun x y => x.1 < y.1) := by
  induction t with
  | nil => simp [tableSet]
  | cons e rest ih =>
    obtain ⟨k0, v0⟩ := e
    obtain ⟨h0, hrest⟩ := List.pairwise_cons.1 h
    simp only [tableSet]
    split
    · next hk => subst hk; exact List.pairwise_cons.2 ⟨h0, hrest⟩
    · split
      · next hlt =>
        refine List.pairwise_cons.2 ⟨?_, h⟩
        rintro ⟨k1, v1⟩ hm
        rcases List.mem_cons.1 hm with hm | hm
        · simp_all
        · exact trans _ _ _ hlt (h0 _ hm)
      · next hne hlt =>
        refine List.pairwise_cons.2 ⟨?_, ih hrest⟩
        intro e he
        rcases mem_tableSet he with rfl | he
        · exact total _ _ hne hlt
        · exact h0 _ he

end Tables

/-- The heap's canonical form is kept by a write (log 4). -/
theorem heap_wf_tableSet (a : Nat) (v : Word) (h : Memory) (hw : Memory.wf h) : Memory.wf (tableSet a v h) :=
  tableSet_rising (fun _ _ _ => Nat.lt_trans) (fun _ _ hne hn => by omega) a v h hw

/-- The label table's canonical form is kept by a registration (log 10). -/
theorem labels_wf_tableSet (name : Text) (p : Nat) (t : LabelTable) (hw : LabelTable.wf t) :
    LabelTable.wf (tableSet name p t) :=
  tableSet_rising (fun _ _ _ h h' => lt_trans h h')
    (fun _ _ hne hn => lt_of_le_of_ne (not_lt.1 hn) (Ne.symm hne)) name p t hw

/-- Reset's heap has the canonical form. -/
theorem reset_heap_wf : Memory.wf State.reset.heap := by decide

end Sys2Proof.Machine
end

