-- ==== Sys2Proof/Laws/Ops.lean ====
section
/-! SUPPORT. For each shared operation, everything it can do. -/

namespace Sys2Proof.Machine

/-! ## Registers -/

theorem readReg_of_hasReg {s : State} {r : Reg} (h : s.hasReg r) : ∃ v, s.readReg r = some v :=
  ⟨s.regs[r.val], by simp [State.readReg, List.getElem?_eq_getElem h]⟩

theorem hasReg_of_readReg {s : State} {r : Reg} {v : Word} (h : s.readReg r = some v) : s.hasReg r := by
  simp only [State.readReg] at h
  exact (List.getElem?_eq_some_iff.1 h).1

theorem readReg_writeReg_self {s : State} {r : Reg} (h : s.hasReg r) (v : Word) :
    (s.writeReg r v).readReg r = some v := by
  simp [State.readReg, State.writeReg, h]

theorem readReg_writeReg_ne {r r' : Reg} (h : r ≠ r') (s : State) (v : Word) :
    (s.writeReg r v).readReg r' = s.readReg r' := by
  have : r.val ≠ r'.val := fun hv => h (Fin.ext hv)
  simp [State.readReg, State.writeReg, this]

theorem writeReg_regs_length (s : State) (r : Reg) (v : Word) :
    (s.writeReg r v).regs.length = s.regs.length := by
  simp

/-! ## Heap -/

theorem memRead_memWrite_self (s : State) (a : Nat) (v : Word) : (s.memWrite a v).memRead a = v := by
  simp [State.memRead]

theorem memRead_memWrite_ne {a b : Nat} (h : b ≠ a) (s : State) (v : Word) :
    (s.memWrite a v).memRead b = s.memRead b := by
  simp [State.memRead, tableGet_tableSet_ne h]

/-- A cell's content depends on the parameters and the heap alone. -/
theorem memRead_congr {s t : State} (hp : t.params = s.params) (hh : t.heap = s.heap) (a : Nat) :
    t.memRead a = s.memRead a := by
  simp [State.memRead, hp, hh]

theorem heapCell_of_nat {p : Params} {a : Nat} (h : a < p.M) : heapCell? p a = some a := by
  simp [heapCell?, h]

theorem heapCell_eq_some {p : Params} {addr : Int} {a : Nat} (h : heapCell? p addr = some a) :
    addr = a ∧ a < p.M := by
  simp only [heapCell?] at h
  split at h
  · next hr => cases h; omega
  · cases h

theorem heapCell_eq_none {p : Params} {addr : Int} :
    heapCell? p addr = none ↔ addr < 0 ∨ (p.M : Int) ≤ addr := by
  simp only [heapCell?]
  split <;> simp <;> omega

/-! ## Operands -/

@[simp] theorem raise_eq_next {s t : State} {c : FaultCause} : s.raise c = .next t ↔ t = s.faultHalt c := by
  simp [State.raise, eq_comm]

@[simp] theorem withReg_some {s : State} {r : Reg} {v : Word} (h : s.readReg r = some v)
    (use : Word → Host.Outcome State Fault Refusal) : s.withReg r use = use v := by
  simp [State.withReg, h]

theorem withReg_cases {s : State} {r : Reg} {use : Word → Host.Outcome State Fault Refusal}
    {o : Host.Outcome State Fault Refusal} (h : s.withReg r use = o) :
    (∃ v, s.readReg r = some v ∧ use v = o) ∨
      (¬ s.hasReg r ∧ o = .next (s.faultHalt (.registerOutOfRange r))) := by
  simp only [State.withReg] at h
  split at h
  · next v hv => exact .inl ⟨v, hv, h⟩
  · next hn => exact .inr ⟨by simpa [State.readReg, State.hasReg] using hn, h.symm⟩

@[simp] theorem withRegs_some {s : State} {r1 r2 : Reg} {a b : Word} (h1 : s.readReg r1 = some a)
    (h2 : s.readReg r2 = some b) (use : Word → Word → Host.Outcome State Fault Refusal) :
    s.withRegs r1 r2 use = use a b := by
  simp [State.withRegs, h1, h2]

theorem withRegs_cases {s : State} {r1 r2 : Reg} {use : Word → Word → Host.Outcome State Fault Refusal}
    {o : Host.Outcome State Fault Refusal} (h : s.withRegs r1 r2 use = o) :
    (∃ a b, s.readReg r1 = some a ∧ s.readReg r2 = some b ∧ use a b = o) ∨
      ∃ r ∈ [r1, r2], ¬ s.hasReg r ∧ o = .next (s.faultHalt (.registerOutOfRange r)) := by
  rcases withReg_cases h with ⟨a, ha, h⟩ | ⟨hn, ho⟩
  · rcases withReg_cases h with ⟨b, hb, h⟩ | ⟨hn, ho⟩
    · exact .inl ⟨a, b, ha, hb, h⟩
    · exact .inr ⟨r2, by simp, hn, ho⟩
  · exact .inr ⟨r1, by simp, hn, ho⟩

theorem binary_some {s : State} {r1 r2 : Reg} {a b : Word} (h1 : s.readReg r1 = some a)
    (h2 : s.readReg r2 = some b) (op : Params → Word → Word → Word) :
    s.binary op r1 r2 = .next (s.writeReg r1 (op s.params a b)) := by
  simp [State.binary, h1, h2]

theorem binary_cases {s t : State} {r1 r2 : Reg} {op : Params → Word → Word → Word}
    (h : s.binary op r1 r2 = .next t) :
    (∃ a b, s.readReg r1 = some a ∧ s.readReg r2 = some b ∧ t = s.writeReg r1 (op s.params a b)) ∨
      ∃ r ∈ [r1, r2], ¬ s.hasReg r ∧ t = s.faultHalt (.registerOutOfRange r) := by
  rcases withRegs_cases h with ⟨a, b, ha, hb, h⟩ | ⟨r, hr, hn, h⟩
  · cases h; exact .inl ⟨a, b, ha, hb, rfl⟩
  · cases h; exact .inr ⟨r, hr, hn, rfl⟩

@[simp] theorem withTarget_some {s : State} {name : Text} {p : Nat} (h : s.lookup name = some p)
    (use : Nat → Host.Outcome State Fault Refusal) : s.withTarget name use = use p := by
  simp [State.withTarget, h]

theorem withTarget_none {s : State} {name : Text} (h : s.lookup name = none)
    (use : Nat → Host.Outcome State Fault Refusal) :
    s.withTarget name use = .next (s.faultHalt (.undefinedLabel name)) := by
  simp [State.withTarget, h, State.raise]

theorem withTarget_cases {s : State} {name : Text} {use : Nat → Host.Outcome State Fault Refusal}
    {o : Host.Outcome State Fault Refusal} (h : s.withTarget name use = o) :
    (∃ p, s.lookup name = some p ∧ use p = o) ∨
      (s.lookup name = none ∧ o = .next (s.faultHalt (.undefinedLabel name))) := by
  simp only [State.withTarget] at h
  split at h
  · next p hp => exact .inl ⟨p, hp, h⟩
  · next hn => exact .inr ⟨hn, h.symm⟩

@[simp] theorem withCell_some {s : State} {addr : Int} {a : Nat} (h : heapCell? s.params addr = some a)
    (use : Nat → Host.Outcome State Fault Refusal) : s.withCell addr use = use a := by
  simp [State.withCell, h]

theorem withCell_cases {s : State} {addr : Int} {use : Nat → Host.Outcome State Fault Refusal}
    {o : Host.Outcome State Fault Refusal} (h : s.withCell addr use = o) :
    (∃ a : Nat, addr = a ∧ a < s.params.M ∧ use a = o) ∨
      ((addr < 0 ∨ (s.params.M : Int) ≤ addr) ∧
        o = .next (s.faultHalt (.heapAddressOutOfRange addr))) := by
  simp only [State.withCell] at h
  split at h
  · next a ha => exact .inl ⟨a, (heapCell_eq_some ha).1, (heapCell_eq_some ha).2, h⟩
  · next hn => exact .inr ⟨heapCell_eq_none.1 hn, h.symm⟩

theorem callStackFull_eq_true {s : State} :
    s.callStackFull = true ↔ ∃ D, s.params.depth = some D ∧ s.callStack.length = D := by
  simp [State.callStackFull, Option.any_eq_true]

/-- The faulting position and line of a state whose fetch was at position p (R165). -/
theorem faultRecord_at {s : State} {p : Nat} {line : Text} (hpc : s.pc = p + 1)
    (hl : s.prog[p]? = some line) (c : FaultCause) :
    s.faultRecord c = { cause := c, position := p, line := line } := by
  simp [State.faultRecord, hpc, hl]

/-! ## The step -/

/-- Everything a step can do (R104). -/
theorem step_cases {s t : State} (h : step s = .next t) :
    s.status = .running ∧
      ((s.prog.length ≤ s.pc ∧ t = s.normalHalt) ∨
        ∃ line, s.prog[s.pc]? = some line ∧
          ((∃ c, decode s.params line = .error c ∧ t = s.advance.faultHalt c) ∨
            ∃ i, decode s.params line = .ok i ∧ exec i s.advance = .next t)) := by
  simp only [step] at h
  split at h
  · cases h
  · cases h
  · next hs =>
    refine ⟨hs, ?_⟩
    split at h
    · next hf =>
      cases h
      exact .inl ⟨by simpa [State.fetch] using hf, rfl⟩
    · next line hf =>
      refine .inr ⟨line, hf, ?_⟩
      split at h
      · next c hd => exact .inl ⟨c, hd, by simpa using h⟩
      · next i hd => exact .inr ⟨i, hd, h⟩

end Sys2Proof.Machine
end

