-- ==== Sys2Proof/Laws/Exec.lean ====
section
/-! SUPPORT. Everything one execution can do, as one inversion lemma over all instructions. -/

namespace Sys2Proof.Machine

/-- What executing i may do to s: a fault halt, or one of the eight shapes of update. -/
inductive Effect (i : Instr) (s : State) : State → Prop where
  /-- A fault of the instruction's own row of R161. -/
  | raised (c : FaultCause) (h : c ∈ executeFaults i) : Effect i s (s.faultHalt c)
  /-- A register operand outside the register file (log 12). -/
  | noRegister (r : Reg) (h : r ∈ regOperands i) (hn : ¬ s.hasReg r) :
      Effect i s (s.faultHalt (.registerOutOfRange r))
  | wrote (r : Reg) (v : Word) (h : destReg i = some r) (hr : s.hasReg r) : Effect i s (s.writeReg r v)
  | printed (r : Reg) (v : Word) (h : i = .print r) (hv : s.readReg r = some v) :
      Effect i s (s.emitOut (outputLine r v))
  | stored (r : Reg) (addr : Int) (a : Nat) (v : Word) (h : i = .store r addr)
      (hc : storeCell s.params i = some a) (hv : s.readReg r = some v) : Effect i s (s.memWrite a v)
  | nothing (h : (∃ name, i = .label name) ∨ ∃ r1 r2 name, i = .jeq r1 r2 name) : Effect i s s
  | jumped (name : Text) (target : Nat) (h : i = .jmp name ∨ ∃ r1 r2, i = .jeq r1 r2 name)
      (ht : s.lookup name = some target) : Effect i s (s.setPc target)
  | called (name : Text) (target : Nat) (h : i = .call name) (ht : s.lookup name = some target)
      (hf : s.callStackFull = false) :
      Effect i s { s with callStack := s.pc :: s.callStack, pc := target }
  | returned (target : Nat) (rest : List Nat) (h : i = .ret) (hc : s.callStack = target :: rest) :
      Effect i s { s with callStack := rest, pc := target }
  | allocated (size : Nat) (h : i = .alloc size) (hn : 0 ≤ s.sp - size) :
      Effect i s { s with sp := s.sp - size }

/-- The printed line with its index digit written out (R125). -/
theorem outputLine_eq (r : Reg) (v : Word) :
    outputLine r v = "Register ".toList ++ [Nat.digitChar r.val] ++ ": ".toList ++ dec v := by
  have := dec_reg r
  unfold outputLine
  rw [this]

theorem binary_effect {i : Instr} {s t : State} {op : Params → Word → Word → Word} {r1 r2 : Reg}
    (h : s.binary op r1 r2 = .next t) (hd : destReg i = some r1) (ho : regOperands i = [r1, r2]) :
    Effect i s t := by
  rcases binary_cases h with ⟨a, b, ha, -, rfl⟩ | ⟨r, hr, hn, rfl⟩
  · exact .wrote _ _ hd (hasReg_of_readReg ha)
  · exact .noRegister r (ho ▸ hr) hn

/-- The inversion lemma of `exec`. -/
theorem exec_effect {i : Instr} {s t : State} (h : exec i s = .next t) : Effect i s t := by
  cases i with
  | mov rd imm =>
    rcases withReg_cases h with ⟨v, hv, h⟩ | ⟨hn, h⟩ <;> cases h
    · exact .wrote _ _ rfl (hasReg_of_readReg hv)
    · exact .noRegister _ (by simp [regOperands]) hn
  | add r1 r2 => exact binary_effect h rfl rfl
  | sub r1 r2 => exact binary_effect h rfl rfl
  | mul r1 r2 => exact binary_effect h rfl rfl
  | exp r1 r2 => exact binary_effect h rfl rfl
  | gt r1 r2 => exact binary_effect h rfl rfl
  | lt r1 r2 => exact binary_effect h rfl rfl
  | eq r1 r2 => exact binary_effect h rfl rfl
  | div r1 r2 =>
    rcases withRegs_cases h with ⟨a, b, ha, -, h⟩ | ⟨r, hr, hn, h⟩
    · split at h <;> cases h
      · exact .raised _ (by simp [executeFaults])
      · exact .wrote _ _ rfl (hasReg_of_readReg ha)
    · cases h; exact .noRegister r hr hn
  | mod r1 r2 =>
    rcases withRegs_cases h with ⟨a, b, ha, -, h⟩ | ⟨r, hr, hn, h⟩
    · split at h <;> cases h
      · exact .raised _ (by simp [executeFaults])
      · exact .wrote _ _ rfl (hasReg_of_readReg ha)
    · cases h; exact .noRegister r hr hn
  | print r =>
    rcases withReg_cases h with ⟨v, hv, h⟩ | ⟨hn, h⟩ <;> cases h
    · exact .printed r v rfl hv
    · exact .noRegister _ (by simp [regOperands]) hn
  | jmp name =>
    rcases withTarget_cases h with ⟨p, hp, h⟩ | ⟨-, h⟩ <;> cases h
    · exact .jumped name p (.inl rfl) hp
    · exact .raised _ (by simp [executeFaults])
  | jeq r1 r2 name =>
    rcases withRegs_cases h with ⟨a, b, -, -, h⟩ | ⟨r, hr, hn, h⟩
    · split at h
      · rcases withTarget_cases h with ⟨p, hp, h⟩ | ⟨-, h⟩ <;> cases h
        · exact .jumped name p (.inr ⟨r1, r2, rfl⟩) hp
        · exact .raised _ (by simp [executeFaults])
      · cases h; exact .nothing (.inr ⟨r1, r2, name, rfl⟩)
    · cases h; exact .noRegister r hr hn
  | call name =>
    rcases withTarget_cases h with ⟨p, hp, h⟩ | ⟨-, h⟩
    · split at h
      · cases h; exact .raised _ (by simp [executeFaults])
      · next hf => cases h; exact .called name p rfl hp (by simpa using hf)
    · cases h; exact .raised _ (by simp [executeFaults])
  | ret =>
    simp only [exec, execRet] at h
    split at h
    · cases h; exact .raised _ (by simp [executeFaults])
    · next hc => cases h; exact .returned _ _ rfl hc
  | alloc size =>
    simp only [exec, execAlloc] at h
    split at h
    · cases h; exact .raised _ (by simp [executeFaults])
    · cases h; exact .allocated size rfl (by omega)
  | store r addr =>
    rcases withReg_cases h with ⟨v, hv, h⟩ | ⟨hn, h⟩
    · rcases withCell_cases h with ⟨a, ha, hlt, h⟩ | ⟨-, h⟩ <;> cases h
      · exact .stored r addr a v rfl (by simp [storeCell, ha, heapCell_of_nat hlt]) hv
      · exact .raised _ (by simp [executeFaults])
    · cases h; exact .noRegister _ (by simp [regOperands]) hn
  | load r addr =>
    rcases withReg_cases h with ⟨v, hv, h⟩ | ⟨hn, h⟩
    · rcases withCell_cases h with ⟨a, -, -, h⟩ | ⟨-, h⟩ <;> cases h
      · exact .wrote _ _ rfl (hasReg_of_readReg hv)
      · exact .raised _ (by simp [executeFaults])
    · cases h; exact .noRegister _ (by simp [regOperands]) hn
  | label name => cases h; exact .nothing (.inl ⟨name, rfl⟩)

end Sys2Proof.Machine
end

