-- ==== Sys2Proof/Laws/HostPort.lean ====
section
/-! SUPPORT. What each host operation can do, and the induction over the steps of a run. -/

namespace Sys2Proof.Machine

/-- A line defines a label exactly when it is `LABEL ` and a non-empty name (R74, R87). -/
theorem labelNameOf_eq_some {line name : Text} :
    labelNameOf line = some name ↔ name ≠ [] ∧ line = "LABEL ".toList ++ name := by
  unfold labelNameOf
  constructor
  · intro h
    split at h
    · next hc =>
      injection h with h
      subst h
      refine ⟨fun e => ?_, ?_⟩
      · have := congrArg List.length e
        simp at this
        omega
      · have := (List.take_append_drop 6 line).symm
        rwa [hc.2] at this
    · cases h
  · rintro ⟨h, rfl⟩
    have : name.length ≠ 0 := by simpa using h
    rw [if_pos ⟨by simp; omega, by simp⟩]
    simp

/-- Everything an accepted LOAD can do (R87). -/
theorem hostLoad_next {s t : State} {lines : List Text} (h : s.hostLoad lines = .next t) :
    s.status ≠ .running ∧
      ∃ table, prepass 0 [] lines = .ok table ∧ t = { s with prog := lines, labels := table } := by
  unfold State.hostLoad State.whenNotRunning at h
  split at h
  · cases h
  · next hs =>
    split at h
    · cases h
    · next table ht => cases h; exact ⟨hs, table, ht, rfl⟩

/-- Everything an accepted REGISTER_LABEL can do (R89). -/
theorem hostRegister_next {s t : State} {name : Text} {p : Int} (h : s.hostRegister name p = .next t) :
    s.status ≠ .running ∧ (name ≠ [] ∧ 0 ≤ p ∧ p ≤ (s.prog.length : Int)) ∧
      t = { s with labels := tableSet name p.toNat s.labels } := by
  unfold State.hostRegister State.whenNotRunning at h
  split at h
  · cases h
  · next hs =>
    split at h
    · next hp => cases h; exact ⟨hs, hp, rfl⟩
    · cases h

/-- Everything an accepted RUN can do before the first step (R90). -/
theorem hostRun_next {s t : State} (h : s.hostRun = .next t) :
    s.status ≠ .running ∧ t = { s with pc := 0, status := .running, haltCause := .none } := by
  unfold State.hostRun State.whenNotRunning at h
  split at h
  · cases h
  · next hs => cases h; exact ⟨hs, rfl⟩

/-- The pre-pass keeps a label table canonical (log 10). -/
theorem prepass_wf {lines : List Text} {i : Nat} {labels table : LabelTable} (hw : LabelTable.wf labels)
    (h : prepass i labels lines = .ok table) : LabelTable.wf table := by
  induction lines generalizing i labels with
  | nil => cases h; exact hw
  | cons line rest ih =>
    simp only [prepass] at h
    split at h
    · exact ih hw h
    · split at h
      · cases h
      · exact ih (labels_wf_tableSet _ _ _ hw) h

/-- What holds at the start of a run and is kept by every step holds in every state the run reaches. -/
theorem reaches_induction {P : State → Prop} {s t : State} (start : P s)
    (keep : ∀ u v, P u → step u = .next v → P v) (h : Reaches s t) : P t := by
  induction h with
  | refl => exact start
  | tail _ hs ih => exact keep _ _ ih hs

end Sys2Proof.Machine
end

