-- ==== Sys2Proof/Laws/PerInstr.lean ====
section
/-! SUPPORT. Per-instruction families: a lemma for each constructor of Instr. -/

namespace Sys2Proof.Laws.EncodeKeyword

/-- The keyword of an instruction's line is the instruction's keyword (R61, R62). -/
def Statement (i : Instr) : Prop :=
  keywordOf (encode i) = i.keyword.text

theorem mov (rd : Reg) (imm : Word) : Statement (.mov rd imm) := keywordOf_append .mov _
theorem add (r1 r2 : Reg) : Statement (.add r1 r2) := keywordOf_append .add _
theorem sub (r1 r2 : Reg) : Statement (.sub r1 r2) := keywordOf_append .sub _
theorem mul (r1 r2 : Reg) : Statement (.mul r1 r2) := keywordOf_append .mul _
theorem div (r1 r2 : Reg) : Statement (.div r1 r2) := keywordOf_append .div _
theorem mod (r1 r2 : Reg) : Statement (.mod r1 r2) := keywordOf_append .mod _
theorem exp (r1 r2 : Reg) : Statement (.exp r1 r2) := keywordOf_append .exp _
theorem gt (r1 r2 : Reg) : Statement (.gt r1 r2) := keywordOf_append .gt _
theorem lt (r1 r2 : Reg) : Statement (.lt r1 r2) := keywordOf_append .lt _
theorem eq (r1 r2 : Reg) : Statement (.eq r1 r2) := keywordOf_append .eq _
theorem print (r : Reg) : Statement (.print r) := keywordOf_append .print _
theorem jmp (name : Text) : Statement (.jmp name) := keywordOf_append .jmp _
theorem jeq (r1 r2 : Reg) (name : Text) : Statement (.jeq r1 r2 name) := keywordOf_append .jeq _
theorem call (name : Text) : Statement (.call name) := keywordOf_append .call _
theorem ret : Statement .ret := rfl
theorem alloc (size : Nat) : Statement (.alloc size) := keywordOf_append .alloc _
theorem store (r : Reg) (addr : Int) : Statement (.store r addr) := keywordOf_append .store _
theorem load (r : Reg) (addr : Int) : Statement (.load r addr) := keywordOf_append .load _
theorem label (name : Text) : Statement (.label name) := keywordOf_append .label _

end Sys2Proof.Laws.EncodeKeyword
end

