-- ==== Sys2Proof/Tests/Slice0.lean ====
section
/-! SUPPORT. The model's own tests, and a witness for the hypotheses of each statement. Expected results are those of
95_test_vectors.md, or worked out by hand from the cited rule. -/

namespace Sys2Proof.Tests

open Sys2Proof.Machine

/-! ## Helpers -/

/-- The next state, if there is one. -/
def after (o : Host.Outcome State Fault Refusal) : Option State :=
  match o with
  | .next t => some t
  | .fault _ => none
  | .refused _ => none

/-- The refusal, if there is one. -/
def refusal (o : Host.Outcome State Fault Refusal) : Option Refusal :=
  match o with
  | .next _ => none
  | .fault _ => none
  | .refused r => some r

/-- A running default machine about to fetch the line at position p. -/
def about (p : Nat) (line : String) : State :=
  { State.fresh Params.default with
    prog := List.replicate p [] ++ [line.toList], pc := p, status := .running }

/-- The same with x[0] = a and x[1] = b. -/
def about2 (line : String) (a b : Int) : State :=
  { about 0 line with regs := [a, b, 0, 0, 0, 0] }

/-- x[0] after one step. -/
def x0 (s : State) : Option Int := (after (step s)).bind (fun t => t.regs[0]?)

/-- The code and info of the fault one step halts on. -/
def faultOf (s : State) : Option (Nat × FaultInfo) :=
  (after (step s)).bind fun t =>
    match t.haltCause with
    | .fault r => some (r.cause.code, r.cause.info)
    | .none => none
    | .normal => none

def MIN : Int := -2147483648
def MAX : Int := 2147483647

/-! ## Decoding: every constructor, from lines written out from its format (R66 to R74; vectors 2.1) -/

/-- What the default decoder makes of a line. -/
def dec1 (line : String) : Except FaultCause Instr := decode Params.default line.toList

theorem test_decode_mov : dec1 "MOV R0 -2147483648" = .ok (.mov 0 MIN) := by decide
theorem test_decode_mov_leading_zeros : dec1 "MOV R0 007" = .ok (.mov 0 7) := by decide
theorem test_decode_add : dec1 "ADD R0 R1" = .ok (.add 0 1) := by decide
theorem test_decode_sub : dec1 "SUB R5 R2" = .ok (.sub 5 2) := by decide
theorem test_decode_mul : dec1 "MUL R0 R1" = .ok (.mul 0 1) := by decide
theorem test_decode_div : dec1 "DIV R4 R3" = .ok (.div 4 3) := by decide
theorem test_decode_mod : dec1 "MOD R0 R1" = .ok (.mod 0 1) := by decide
theorem test_decode_exp : dec1 "EXP R2 R0" = .ok (.exp 2 0) := by decide
theorem test_decode_gt : dec1 "GT R0 R1" = .ok (.gt 0 1) := by decide
theorem test_decode_lt : dec1 "LT R2 R3" = .ok (.lt 2 3) := by decide
theorem test_decode_eq : dec1 "EQ R5 R4" = .ok (.eq 5 4) := by decide
theorem test_decode_print : dec1 "PRINT R5" = .ok (.print 5) := by decide
theorem test_decode_jmp : dec1 "JMP my label" = .ok (.jmp "my label".toList) := by decide
theorem test_decode_jeq : dec1 "JEQ R0 R1 end" = .ok (.jeq 0 1 "end".toList) := by decide
theorem test_decode_call : dec1 "CALL f" = .ok (.call "f".toList) := by decide
theorem test_decode_ret : dec1 "RET" = .ok .ret := by decide
theorem test_decode_alloc : dec1 "ALLOC 10" = .ok (.alloc 10) := by decide
theorem test_decode_store : dec1 "STORE R0 100" = .ok (.store 0 100) := by decide
theorem test_decode_load : dec1 "LOAD R0 -1" = .ok (.load 0 (-1)) := by decide
theorem test_decode_label : dec1 "LABEL loop" = .ok (.label "loop".toList) := by decide

/-! The rejections of R80, each class and the order of R75. -/

theorem test_reject_lower_case : dec1 "mov R0 1" = .error (.unknownOpcode "mov".toList) := by decide
theorem test_reject_empty_line : dec1 "" = .error (.unknownOpcode []) := by decide
theorem test_reject_longer_keyword : dec1 "RETURN" = .error (.unknownOpcode "RETURN".toList) := by decide
theorem test_reject_two_spaces :
    dec1 "MOV  R0 1" = .error (.malformedOperand "MOV  R0 1".toList) := by decide
theorem test_reject_comma : dec1 "ADD R0,R1" = .error (.malformedOperand "ADD R0,R1".toList) := by decide
theorem test_reject_plus_sign :
    dec1 "MOV R0 +5" = .error (.malformedOperand "MOV R0 +5".toList) := by decide
theorem test_reject_word_range :
    dec1 "MOV R0 2147483648" = .error (.malformedOperand "MOV R0 2147483648".toList) := by decide
theorem test_reject_negative_size :
    dec1 "ALLOC -1" = .error (.malformedOperand "ALLOC -1".toList) := by decide
theorem test_reject_empty_name : dec1 "JMP " = .error (.malformedOperand "JMP ".toList) := by decide
theorem test_reject_ret_trailing_space : dec1 "RET " = .error (.malformedOperand "RET ".toList) := by decide
theorem test_reject_integer_before_register :
    dec1 "MOV R6 x" = .error (.malformedOperand "MOV R6 x".toList) := by decide
theorem test_reject_first_register : dec1 "ADD R8 R7" = .error (.registerOutOfRange 8) := by decide
theorem test_reject_second_register : dec1 "ADD R0 R7" = .error (.registerOutOfRange 7) := by decide

/-! ## Encoding -/

theorem test_encode_mov : encode (.mov 0 (-5)) = "MOV R0 -5".toList := by decide
theorem test_encode_jeq : encode (.jeq 1 2 "done".toList) = "JEQ R1 R2 done".toList := by decide

/-! ## WellFormed: an ill-formed term for each check -/

theorem test_ill_formed_register : Instr.wf Params.default (.print 6) = false := by decide
theorem test_ill_formed_second_register : Instr.wf Params.default (.add 0 6) = false := by decide
theorem test_ill_formed_immediate_high : Instr.wf Params.default (.mov 0 2147483648) = false := by decide
theorem test_ill_formed_immediate_low : Instr.wf Params.default (.mov 0 (-2147483649)) = false := by decide
theorem test_ill_formed_name : Instr.wf Params.default (.jmp []) = false := by decide
theorem test_ill_formed_label_name : Instr.wf Params.default (.label []) = false := by decide
theorem test_ill_formed_jeq_name : Instr.wf Params.default (.jeq 0 1 []) = false := by decide
theorem test_well_formed_bounds :
    Instr.wf Params.default (.mov 5 MAX) && Instr.wf Params.default (.mov 5 MIN) = true := by decide

/-! ## Lines given as numbers: the first character in bits 7..0 -/

theorem test_table_word_add : decodeTableWord 72 0x315220305220444441 = some (.add 0 1) := by decide
theorem test_table_word_reject : decodeTableWord 24 0x564f4d = none := by decide
theorem test_fetch_word_runs :
    (after (step (State.reset.withFetchWord 72 0x342d20335220564f4d))).map (fun t => (t.regs, t.pc)) =
      some ([0, 0, 0, -4, 0, 0], 1) := by decide

/-! ## One step of each instruction (vectors 2.2 to 2.5) -/

theorem test_mov :
    (after (step (about 2 "MOV R3 -42"))).map (fun t => (t.regs, t.pc)) = some ([0, 0, 0, -42, 0, 0], 3) := by decide
theorem test_add_wraps : x0 (about2 "ADD R0 R1" MAX 1) = some MIN := by decide
theorem test_add_same_register : x0 (about2 "ADD R0 R0" 6 1) = some 12 := by decide
theorem test_sub_wraps : x0 (about2 "SUB R0 R1" MIN 1) = some MAX := by decide
theorem test_sub_order : x0 (about2 "SUB R0 R1" 5 7) = some (-2) := by decide
theorem test_mul_low_bits : x0 (about2 "MUL R0 R1" 46341 46341) = some (-2147479015) := by decide
theorem test_mul_min : x0 (about2 "MUL R0 R1" (-1) MIN) = some MIN := by decide
theorem test_div_toward_zero : x0 (about2 "DIV R0 R1" (-7) 2) = some (-3) := by decide
theorem test_div_min_by_minus_one : x0 (about2 "DIV R0 R1" MIN (-1)) = some MIN := by decide
theorem test_mod_sign_of_dividend : x0 (about2 "MOD R0 R1" (-7) 2) = some (-1) := by decide
theorem test_mod_negative_divisor : x0 (about2 "MOD R0 R1" 7 (-2)) = some 1 := by decide
theorem test_exp_wraps : x0 (about2 "EXP R0 R1" 10 10) = some 1410065408 := by decide
theorem test_exp_negative_exponent : x0 (about2 "EXP R0 R1" (-1) (-3)) = some (-1) := by decide
theorem test_gt_signed : x0 (about2 "GT R0 R1" 5 (-3)) = some 1 := by decide
theorem test_gt_equal : x0 (about2 "GT R0 R1" 3 3) = some 0 := by decide
theorem test_lt_signed : x0 (about2 "LT R0 R1" MIN MAX) = some 1 := by decide
theorem test_lt_equal : x0 (about2 "LT R0 R1" 3 3) = some 0 := by decide
theorem test_eq_same_register : x0 (about2 "EQ R0 R0" 123 0) = some 1 := by decide
theorem test_eq_sign : x0 (about2 "EQ R0 R1" 5 (-5)) = some 0 := by decide
theorem test_print_negative :
    (after (step (about2 "PRINT R0" MIN 0))).map (fun t => t.out) = some ["Register 0: -2147483648".toList] := by decide
theorem test_label_only_advances :
    after (step (about 4 "LABEL loop")) = some { about 4 "LABEL loop" with pc := 5 } := by decide

/-- The default machine with the labels of vectors 2.4. -/
def labelled (p : Nat) (line : String) : State :=
  { about p line with labels := [("done".toList, 9), ("end".toList, 9), ("f".toList, 5)], callStack := [8, 3] }

theorem test_jmp_forward : (after (step (labelled 3 "JMP end"))).map (fun t => t.pc) = some 9 := by decide
theorem test_jmp_undefined :
    faultOf (labelled 3 "JMP nowhere") = some (6, .text "nowhere".toList) := by decide
theorem test_jeq_taken :
    (after (step (labelled 5 "JEQ R1 R2 done"))).map (fun t => t.pc) = some 9 := by decide
theorem test_jeq_untaken_undefined :
    (after (step (about2 "JEQ R0 R1 nowhere" 3 0))).map (fun t => (t.pc, t.status)) = some (1, .running) := by decide
theorem test_call_pushes :
    (after (step (labelled 7 "CALL f"))).map (fun t => (t.pc, t.callStack)) = some (5, [8, 8, 3]) := by decide
theorem test_call_overflow :
    faultOf { labelled 2 "CALL f" with params := { Params.default with depth := some 2 } } =
      some (10, .text "f".toList) := by decide
theorem test_ret_pops :
    (after (step (labelled 12 "RET"))).map (fun t => (t.pc, t.callStack)) = some (8, [3]) := by decide
theorem test_ret_empty : faultOf (about 4 "RET") = some (7, .none) := by decide
theorem test_alloc_to_zero : (after (step (about 0 "ALLOC 99"))).map (fun t => t.sp) = some 0 := by decide
theorem test_alloc_all_cells_faults : faultOf (about 0 "ALLOC 100") = some (9, .integer 100) := by decide
theorem test_store_last_cell :
    (after (step (about2 "STORE R0 99" 17 0))).map (fun t => (t.memRead 99, t.heap)) = some (17, [(99, 17)]) := by decide
theorem test_store_outside : faultOf (about2 "STORE R0 100" 17 0) = some (8, .integer 100) := by decide
theorem test_load_stored :
    (after (step { about 0 "LOAD R4 99" with heap := [(7, 1), (99, 17)] })).map (fun t => t.regs) =
      some [0, 0, 0, 0, 17, 0] := by decide
theorem test_load_negative : faultOf (about 0 "LOAD R0 -1") = some (8, .integer (-1)) := by decide

/-! The faults of DIV and MOD, with the whole halted state (program P5), and the engine (vectors 2.6). -/

theorem test_div_fault_record :
    after (step (about2 "DIV R0 R1" 9 0)) = some { about2 "DIV R0 R1" 9 0 with
      pc := 1
      status := .halted
      haltCause := .fault { cause := .divideByZero 1, position := 0, line := "DIV R0 R1".toList }
      trace := [.err { cause := .divideByZero 1, position := 0, line := "DIV R0 R1".toList }] } := by decide
theorem test_mod_fault : faultOf (about2 "MOD R0 R1" 9 0) = some (5, .register 1) := by decide
theorem test_garbage_line : faultOf (about 0 "garbage") = some (1, .text "garbage".toList) := by decide
theorem test_empty_program_halts :
    (after (step { State.reset with status := .running })).map (fun t => (t.pc, t.status, t.haltCause)) =
      some (0, .halted, .normal) := by decide
theorem test_no_step_from_reset : after (step State.reset) = none := by decide

/-! ## The host's operations -/

theorem test_load_builds_labels :
    (after (State.reset.hostLoad ["JMP end".toList, "LABEL end".toList])).map (fun t => t.labels) =
      some [("end".toList, 1)] := by decide
theorem test_load_refuses_duplicate :
    refusal (State.reset.hostLoad ["LABEL a".toList, "LABEL a".toList]) = some (.duplicateLabel "a".toList) := by decide
theorem test_register_refused :
    refusal (State.hostRegister { State.reset with prog := ["MOV R0 1".toList] } "x".toList 2) =
      some (.badRegistration "x".toList 2) := by decide
theorem test_register_at_end :
    (after (State.hostRegister { State.reset with prog := ["JMP x".toList] } "x".toList 1)).map
      (fun t => t.labels) = some [("x".toList, 1)] := by decide
theorem test_construct_refused :
    refusal (construct { Params.default with N := 11 }) = some .badParameters := by decide

/-! ## Witnesses: for each statement with hypotheses, a state and operands that meet them together -/

/-- x[0] = -7, x[1] = 2, x[2] = -1, x[4] = 1. -/
def regsState : State := { about 0 "RET" with regs := [-7, 2, -1, 0, 1, MAX] }

/-- One entry on CS, room for no other, one label. -/
def fullState : State :=
  { about 0 "CALL f" with
    params := { Params.default with depth := some 1 }, callStack := [1], labels := [("f".toList, 1)], pc := 1 }

theorem witness_ConstructGivesResetValues :
    Params.valid { N := 10, M := 2, W := 2, depth := some 1, draw := 7 } = true := by decide
theorem witness_ConstructAcceptsExactlyTheRanges :
    ∀ s, construct { Params.default with W := 1 } ≠ .next s := by
  intro s h; cases h
theorem witness_LoadReplacesProgramAndLabels :
    ∃ t, State.reset.hostLoad ["LABEL a".toList] = .next t ∧ t.lookup "a".toList = some 0 := ⟨_, rfl, by decide⟩
theorem witness_LoadRefusesDuplicateLabels : State.reset.status ≠ .running := by decide
theorem witness_RegisterSetsOneLabel_accepted :
    State.status { State.reset with prog := ["JMP x".toList] } ≠ .running ∧ "x".toList ≠ [] ∧ (0 : Int) ≤ 1 ∧
      (1 : Int) ≤ (State.prog { State.reset with prog := ["JMP x".toList] }).length := by decide
theorem witness_RegisterSetsOneLabel_refused :
    State.reset.status ≠ .running ∧ (State.reset.prog.length : Int) < 1 := by decide
theorem witness_RunSetsOnlyPcStatusCause :
    State.reset.status = .idle ∧ State.reset.normalHalt.status = .halted := by decide
theorem witness_HostActsOnlyBetweenRuns : (about 0 "RET").status = .running := by decide
theorem witness_DecodeEncodeAgree :
    Instr.wf { N := 1, M := 1, W := 2, depth := none, draw := 0 } (.mov 0 (-2)) = true := by decide
theorem witness_StepRunsDecodedInstruction :
    (about 1 "RET").status = .running ∧ (about 1 "RET").prog[1]? = some "RET".toList ∧
      decode (about 1 "RET").params "RET".toList = .ok .ret := by decide
theorem witness_StepPastProgramHaltsNormally :
    State.status { State.reset with status := .running } = .running ∧ State.reset.prog.length ≤ State.reset.pc := by decide
theorem witness_StepOnIllegalLineFaultHalts :
    (about 0 "NOP").status = .running ∧ (about 0 "NOP").prog[0]? = some "NOP".toList ∧
      decode (about 0 "NOP").params "NOP".toList = .error (.unknownOpcode "NOP".toList) := by decide
theorem witness_RunningEndsOnlyInTheTwoHalts_running :
    ∃ t, step (about 0 "LABEL a") = .next t ∧ t.status = .running := ⟨_, rfl, by decide⟩
theorem witness_RunningEndsOnlyInTheTwoHalts_fault :
    ∃ t, step (about 0 "RET") = .next t ∧ t.status = .halted := ⟨_, rfl, by decide⟩
theorem witness_ExecuteFaultHaltsPrecisely :
    fullState.pc = 0 + 1 ∧ fullState.prog[0]? = some "CALL f".toList := by decide
theorem witness_EachInstructionRaisesOnlyItsFaults :
    (∀ r ∈ regOperands (.div 0 3), regsState.hasReg r) ∧
      ∃ t, exec (.div 0 3) regsState = .next t ∧ t.status = .halted := ⟨by decide, _, rfl, by decide⟩
theorem witness_MovLoadsImmediate : regsState.hasReg 5 := by decide
theorem witness_MovLoadsImmediate_decoded :
    parseInteger "-2147483648".toList = some MIN ∧ isWord 32 MIN = true ∧ (5 : Reg).val < 6 := by decide
theorem witness_MovLoadsImmediate_malformed :
    ∀ v, parseInteger "2147483648".toList = some v → isWord 32 v = false := by
  intro v h; cases h; decide
theorem witness_MovLoadsImmediate_register :
    parseInteger "2147483647".toList = some MAX ∧ isWord 32 MAX = true ∧ 6 ≤ (6 : Reg).val := by decide
theorem witness_AddWritesWrappedSum :
    regsState.readReg 5 = some MAX ∧ regsState.readReg 4 = some 1 := by decide
theorem witness_SubWritesWrappedDifference :
    regsState.readReg 5 = some MAX ∧ regsState.readReg 4 = some 1 := by decide
theorem witness_MulWritesWrappedProduct :
    regsState.readReg 5 = some MAX ∧ regsState.readReg 4 = some 1 := by decide
theorem witness_DivWritesTruncatedQuotient :
    regsState.readReg 0 = some (-7) ∧ regsState.readReg 1 = some 2 ∧ (2 : Int) ≠ 0 := by decide
theorem witness_DivWritesTruncatedQuotient_zero :
    regsState.readReg 0 = some (-7) ∧ regsState.readReg 3 = some 0 := by decide
theorem witness_ModWritesTruncatedRemainder :
    regsState.readReg 0 = some (-7) ∧ regsState.readReg 1 = some 2 ∧ (2 : Int) ≠ 0 := by decide
theorem witness_ModWritesTruncatedRemainder_zero :
    regsState.readReg 0 = some (-7) ∧ regsState.readReg 3 = some 0 := by decide
theorem witness_ExpWritesPower_nonnegative :
    regsState.readReg 0 = some (-7) ∧ regsState.readReg 3 = some 0 ∧ (0 : Int) ≤ 0 := by decide
theorem witness_ExpWritesPower_one :
    regsState.readReg 4 = some 1 ∧ regsState.readReg 2 = some (-1) := by decide
theorem witness_ExpWritesPower_minus_one_odd :
    regsState.readReg 2 = some (-1) ∧ (-1 : Int) < 0 ∧ (-1 : Int) % 2 = 1 := by decide
theorem witness_ExpWritesPower_minus_one_even :
    (about2 "RET" (-1) (-2)).readReg 0 = some (-1) ∧ (about2 "RET" (-1) (-2)).readReg 1 = some (-2) ∧ (-2 : Int) % 2 = 0 := by decide
theorem witness_ExpWritesPower_truncated :
    regsState.readReg 1 = some 2 ∧ regsState.readReg 2 = some (-1) ∧ (2 : Int) ≤ 2 := by decide
theorem witness_ExpWritesPower_draw :
    regsState.readReg 3 = some 0 ∧ regsState.readReg 2 = some (-1) := by decide
theorem witness_WrapIsTheCongruentWord : 1 ≤ 2 ∧ isWord 2 (-2) = true ∧ (2 ^ 2 : Int) ∣ -2 - 2 := by decide
theorem witness_QuotientAndRemainderRebuildDividend :
    regsState.readReg 0 = some (-7) ∧ regsState.readReg 1 = some 2 ∧ isWord regsState.params.W (-7) = true ∧
      ∃ t u, exec (.div 0 1) regsState = .next t ∧ exec (.mod 0 1) regsState = .next u ∧
        t.readReg 0 = some (-3) ∧ u.readReg 0 = some (-1) := 
  ⟨by decide, by decide, by decide, _, _, rfl, rfl, by decide, by decide⟩
theorem witness_ExpEqualsRepeatedMul : 2 ≤ Params.default.W := by decide
theorem witness_ComparisonsWriteOneOrZero :
    regsState.readReg 0 = some (-7) ∧ regsState.readReg 3 = some 0 := by decide
theorem witness_PrintAppendsRegisterLine : regsState.readReg 5 = some MAX := by decide
theorem witness_LabelLineOnlyAdvancesPc :
    (about 2 "LABEL a").status = .running ∧ "a".toList ≠ [] ∧
      (about 2 "LABEL a").prog[2]? = some ("LABEL ".toList ++ "a".toList) := by decide
theorem witness_JmpGoesToLabel :
    fullState.lookup "f".toList = some 1 ∧ fullState.lookup "g".toList = none := by decide
theorem witness_JeqGoesToLabelWhenEqual :
    fullState.readReg 0 = some 0 ∧ fullState.readReg 1 = some 0 ∧ fullState.lookup "f".toList = some 1 ∧
      fullState.lookup "g".toList = none := by decide
theorem witness_JeqGoesToLabelWhenEqual_untaken :
    regsState.readReg 0 = some (-7) ∧ regsState.readReg 1 = some 2 ∧ (-7 : Int) ≠ 2 := by decide
theorem witness_CallPushesReturnAddress_overflow :
    fullState.lookup "f".toList = some 1 ∧ fullState.params.depth = some 1 ∧ fullState.callStack.length = 1 := by decide
theorem witness_CallPushesReturnAddress_pushes :
    (labelled 7 "CALL f").lookup "f".toList = some 5 ∧
      ∀ D, (labelled 7 "CALL f").params.depth = some D → (labelled 7 "CALL f").callStack.length ≠ D := 
  ⟨by decide, by intro D h; cases h⟩
theorem witness_CallPushesReturnAddress_undefined : fullState.lookup "g".toList = none := by decide
theorem witness_RetPopsReturnAddress : fullState.callStack = 1 :: [] ∧ regsState.callStack = [] := by decide
theorem witness_RetReturnsAfterItsCall :
    ∃ t, exec (.call "f".toList) (labelled 7 "CALL f") = .next t ∧ t.err = (labelled 7 "CALL f").err ∧
      regsState.callStack ≠ t.callStack ∧ State.callStack { regsState with callStack := [7, 8, 3] } = t.callStack := 
  ⟨_, rfl, by decide, by decide, by decide⟩
theorem witness_AllocLowersPointer :
    0 ≤ regsState.sp - (99 : Nat) ∧ regsState.sp - (100 : Nat) < 0 := by decide
theorem witness_StoreWritesOneCell :
    regsState.readReg 0 = some (-7) ∧ (0 : Nat) < regsState.params.M ∧ (99 : Nat) < regsState.params.M := by decide
theorem witness_StoreWritesOneCell_outside :
    regsState.readReg 0 = some (-7) ∧ (-1 : Int) < 0 ∧ (regsState.params.M : Int) ≤ 100 := by decide
theorem witness_LoadReadsOneCell :
    regsState.hasReg 5 ∧ (0 : Nat) < regsState.params.M ∧ (99 : Nat) < regsState.params.M := by decide
theorem witness_LoadReadsOneCell_outside :
    regsState.hasReg 5 ∧ (-1 : Int) < 0 ∧ (regsState.params.M : Int) ≤ 100 := by decide

/-- Two lines after a store to cell 0: a LABEL, and a STORE to another cell. -/
def storedRun (k : Nat) : State :=
  { about 0 "LABEL a" with
    prog := ["LABEL a".toList, "STORE R1 1".toList]
    pc := k
    heap := if k < 2 then [(0, 0)] else [(0, 0), (1, 0)] }

theorem witness_LoadAfterRunReadsStoredWord :
    exec (.store 0 (0 : Nat)) { storedRun 0 with heap := [] } = .next (storedRun 0) ∧
      step (storedRun 0) = .next (storedRun 1) ∧ step (storedRun 1) = .next (storedRun 2) ∧
      storeCell (storedRun 1).params (.store 1 1) ≠ some 0 ∧ (storedRun 2).hasReg 5 := 
  ⟨rfl, rfl, rfl, by decide, by decide⟩
theorem witness_OnlyDestinationRegisterChanges :
    (∃ t, exec (.add 0 1) regsState = .next t) ∧ destReg (.add 0 1) ≠ some 1 := ⟨⟨_, rfl⟩, by decide⟩
theorem witness_OnlyStoredCellChanges :
    (∃ t, exec (.store 0 99) regsState = .next t) ∧ storeCell regsState.params (.store 0 99) ≠ some 0 := ⟨⟨_, rfl⟩, by decide⟩
theorem witness_ControlStateWriters :
    ∃ t, exec (.store 0 99) regsState = .next t ∧ t.status = .running := ⟨_, rfl, by decide⟩
theorem witness_AllocationPointerIsIndependent :
    (∀ size, Instr.load 0 1 ≠ .alloc size) ∧ ∃ t, exec (.load 0 1) regsState = .next t := 
  ⟨by simp, _, rfl⟩
theorem witness_OnlyLoadReadsHeap :
    (∀ r addr, Instr.store 0 99 ≠ .load r addr) ∧ ∃ t, exec (.store 0 99) regsState = .next t := 
  ⟨by simp, _, rfl⟩
theorem witness_OutputIsNeverReadBack :
    ∃ t, step (about 0 "PRINT R1") = .next t ∧ t.out ≠ [] := ⟨_, rfl, by decide⟩
theorem witness_ConstructionMeetsInvariant :
    ∃ s, construct { N := 10, M := 2, W := 2, depth := some 1, draw := 7 } = .next s := ⟨_, rfl⟩
theorem witness_StepKeepsInvariant :
    State.Inv fullState ∧ ∃ t, step (about 0 "ADD R0 R1") = .next t ∧ State.Inv (about 0 "ADD R0 R1") := 
  ⟨by decide, _, rfl, by decide⟩
theorem witness_HostOperationsKeepInvariant :
    State.reset.Inv ∧ (∃ t, State.reset.hostLoad ["LABEL a".toList] = .next t) ∧
      (∃ t, State.reset.hostRegister "x".toList 0 = .next t) ∧ ∃ t, State.reset.hostRun = .next t := 
  ⟨by decide, ⟨_, rfl⟩, ⟨_, rfl⟩, _, rfl⟩
theorem witness_StepKeepsControlInProgram :
    State.Inv (about 0 "ALLOC 1") ∧ (about 0 "ALLOC 1").controlOk ∧ ∃ t, step (about 0 "ALLOC 1") = .next t := 
  ⟨by decide, by decide, _, rfl⟩
theorem witness_CanonicalRunsStayInvariant :
    ∃ s t, CanonicalStart Params.default ["LABEL a".toList] s ∧ Reaches s t ∧ t.pc = 1 := 
  ⟨_, _, ⟨_, _, rfl, rfl, rfl⟩, .tail (.refl _) rfl, by decide⟩
theorem witness_AtMostOneFaultRecordPerRun :
    (about 0 "RET").status = .running ∧ (about 0 "RET").haltCause = .none ∧
      ∃ t, Reaches (about 0 "RET") t ∧ t.err ≠ [] := 
  ⟨by decide, by decide, _, .tail (.refl _) rfl, by decide⟩
theorem witness_StreamsOnlyGrowAndPointerOnlyFalls :
    ∃ t, Reaches (about 0 "ALLOC 1") t ∧ t.sp = 98 := ⟨_, .tail (.refl _) rfl, by decide⟩
theorem witness_EngineStepsUntilHalted :
    (engine 2 (about 0 "LABEL a")).status ≠ .running ∧ ∃ t, step (engine 1 (about 0 "LABEL a")) = .next t := 
  ⟨by decide, _, rfl⟩

end Sys2Proof.Tests
end

section
/-! SUPPORT. The wrap of R13 onto the Words, and the two statements of 00_scope.md. -/

namespace Sys2Proof

/-! ## Words and wrap (R13) -/

theorem isWord_iff {W : Nat} {v : Int} :
    isWord W v = true ↔ -(2 ^ (W - 1) : Int) ≤ v ∧ v < 2 ^ (W - 1) := by
  simp [isWord]

/-- The modulus of `wrap` is twice its offset. -/
theorem two_mul_two_pow_pred {W : Nat} (hW : 1 ≤ W) : (2 : Int) * 2 ^ (W - 1) = 2 ^ W :=
  mul_pow_sub_one (Nat.one_le_iff_ne_zero.mp hW) 2

@[simp] theorem isWord_wrap {W : Nat} (hW : 1 ≤ W) (v : Int) : isWord W (wrap W v) = true := by
  have modulus_pos : (0 : Int) < 2 ^ W := by positivity
  have lower := Int.emod_nonneg (v + 2 ^ (W - 1)) modulus_pos.ne'
  have upper := Int.emod_lt_of_pos (v + 2 ^ (W - 1)) modulus_pos
  have twice := two_mul_two_pow_pred hW
  rw [isWord_iff, wrap]
  constructor <;> linarith

theorem dvd_wrap_sub (W : Nat) (v : Int) : (2 ^ W : Int) ∣ wrap W v - v := by
  have remainder : (2 ^ W : Int) ∣ (v + 2 ^ (W - 1)) % 2 ^ W - (v + 2 ^ (W - 1)) :=
    (Int.mod_modEq _ _).symm.dvd
  rwa [wrap, sub_sub, add_comm (2 ^ (W - 1) : Int) v]

/-- `wrap` does not tell apart integers congruent modulo `2^W`. -/
theorem wrap_eq_wrap_of_dvd {W : Nat} {u v : Int} (h : (2 ^ W : Int) ∣ u - v) : wrap W u = wrap W v := by
  have congruent : u ≡ v [ZMOD 2 ^ W] := (Int.modEq_iff_dvd.mpr h).symm
  exact congrArg (· - (2 ^ (W - 1) : Int)) (congruent.add_right (2 ^ (W - 1)))

/-- A Word is its own wrap: adding the offset brings it into `[0, 2^W)`, where `mod` changes nothing. -/
theorem wrap_eq_self {W : Nat} (hW : 1 ≤ W) {w : Int} (hw : isWord W w = true) : wrap W w = w := by
  obtain ⟨lower, upper⟩ := isWord_iff.mp hw
  have twice := two_mul_two_pow_pred hW
  rw [wrap, Int.emod_eq_of_lt (by linarith) (by linarith), add_sub_cancel_right]

/-- Settles O32: a Word congruent to `v` is its own wrap, and so the wrap of `v`. -/
theorem wrapIsTheCongruentWord : Obligations.WrapIsTheCongruentWord := by
  intro W v hW
  refine ⟨isWord_wrap hW v, dvd_wrap_sub W v, fun w hw congruent => ?_⟩
  calc w = wrap W w := (wrap_eq_self hW hw).symm
    _ = wrap W v := wrap_eq_wrap_of_dvd congruent

end Sys2Proof

/-! ## Construction (R180) -/

namespace Sys2Proof.Machine

theorem construct_of_valid {p : Params} (h : p.valid = true) : construct p = .next (State.fresh p) :=
  if_pos h

/-- Settles O3: the defaults of R6 to R9 are valid, so CONSTRUCT gives their fresh state, which is reset. -/
theorem resetIsDefaultConstruction : Obligations.ResetIsDefaultConstruction :=
  ⟨State.fresh Params.default, construct_of_valid (p := Params.default) (by decide), rfl, rfl, rfl, rfl, rfl, rfl⟩

end Sys2Proof.Machine
end

section
/-! SUPPORT. The frame of one execution (R22, R25, R42), and what a run adds to the streams (R40, R41). -/

namespace Sys2Proof.Machine

/-! ## Who writes which field (R42) -/

section Writers
variable {i : Instr} {s t : State}

theorem exec_params (h : exec i s = .next t) : t.params = s.params := by
  cases exec_effect h <;> rfl

theorem exec_prog (h : exec i s = .next t) : t.prog = s.prog := by
  cases exec_effect h <;> rfl

theorem exec_labels (h : exec i s = .next t) : t.labels = s.labels := by
  cases exec_effect h <;> rfl

theorem exec_regs_of_no_dest (h : exec i s = .next t) (hd : destReg i = none) : t.regs = s.regs := by
  cases exec_effect h with
  | wrote r v hr => cases hd.symm.trans hr
  | _ => rfl

theorem exec_sp (h : exec i s = .next t) (halloc : ∀ size, i ≠ .alloc size) : t.sp = s.sp := by
  cases exec_effect h with
  | allocated size hi => exact absurd hi (halloc size)
  | _ => rfl

theorem exec_callStack (h : exec i s = .next t) (hcall : ∀ name, i ≠ .call name) (hret : i ≠ .ret) :
    t.callStack = s.callStack := by
  cases exec_effect h with
  | called name _ hi => exact absurd hi (hcall name)
  | returned _ _ hi => exact absurd hi hret
  | _ => rfl

theorem exec_pc (h : exec i s = .next t) (hjmp : ∀ name, i ≠ .jmp name)
    (hjeq : ∀ r1 r2 name, i ≠ .jeq r1 r2 name) (hcall : ∀ name, i ≠ .call name) (hret : i ≠ .ret) :
    t.pc = s.pc := by
  cases exec_effect h with
  | jumped name _ hi =>
    rcases hi with hi | ⟨r1, r2, hi⟩
    · exact absurd hi (hjmp name)
    · exact absurd hi (hjeq r1 r2 name)
  | called name _ hi => exact absurd hi (hcall name)
  | returned _ _ hi => exact absurd hi hret
  | _ => rfl

theorem exec_out (h : exec i s = .next t) (hprint : ∀ r, i ≠ .print r) : t.out = s.out := by
  cases exec_effect h with
  | printed r _ hi => exact absurd hi (hprint r)
  | raised c | noRegister r => exact faultHalt_out s _
  | _ => rfl

end Writers

/-- Settles O49, field by field. -/
theorem controlStateWriters : Obligations.ControlStateWriters := fun _ _ _ h =>
  ⟨exec_params h, exec_prog h, exec_labels h, exec_sp h, exec_callStack h, exec_pc h, exec_out h⟩

/-- Settles O47: of the effects an execution can have, only a register write touches the register file, and
it sets the destination. -/
theorem onlyDestinationRegisterChanges : Obligations.OnlyDestinationRegisterChanges := by
  intro i s t r h hr
  cases exec_effect h with
  | wrote r' v hd =>
    have other : r' ≠ r := fun e => hr (e ▸ hd)
    exact ⟨readReg_writeReg_ne other s v, writeReg_regs_length s r' v⟩
  | _ => exact ⟨rfl, rfl⟩

/-- Settles O48: of the effects an execution can have, only a store touches the heap. -/
theorem onlyStoredCellChanges : Obligations.OnlyStoredCellChanges := by
  intro i s t a h ha
  cases exec_effect h with
  | stored _ _ b v _ hc =>
    have other : a ≠ b := fun e => ha (e ▸ hc)
    exact memRead_memWrite_ne other s v
  | _ => rfl

/-! ## The two halts (R95, R165) -/

/-- Settles O23: the record of a fault raised after the fetch at `p` is the record of the line there. -/
theorem executeFaultHaltsPrecisely : Obligations.ExecuteFaultHaltsPrecisely := by
  intro s p line c hpc hline
  rw [raise_eq_next, State.faultHalt, faultRecord_at hpc hline]

/-- An execution leaves ERR, status and halt cause alone, or is a fault halt. -/
theorem exec_continues_or_faults {i : Instr} {s t : State} (h : exec i s = .next t) :
    (t.err = s.err ∧ t.status = s.status ∧ t.haltCause = s.haltCause) ∨ ∃ c, t = s.faultHalt c := by
  cases exec_effect h with
  | raised c | noRegister r => exact .inr ⟨_, rfl⟩
  | printed r v => exact .inl ⟨emitOut_err s _, rfl, rfl⟩
  | _ => exact .inl ⟨rfl, rfl, rfl⟩

/-- A step leaves ERR, status and halt cause alone, or is one of the two halts. -/
theorem step_continues_or_halts {s t : State} (h : step s = .next t) :
    s.status = .running ∧ ((t.err = s.err ∧ t.status = s.status ∧ t.haltCause = s.haltCause) ∨
      t = s.normalHalt ∨ ∃ c, t = s.advance.faultHalt c) := by
  obtain ⟨running, ⟨-, normal⟩ | ⟨line, -, ⟨c, -, decodeFault⟩ | ⟨i, -, executed⟩⟩⟩ := step_cases h
  · exact ⟨running, .inr (.inl normal)⟩
  · exact ⟨running, .inr (.inr ⟨c, decodeFault⟩)⟩
  · exact ⟨running, (exec_continues_or_faults executed).imp_right .inr⟩

/-- Settles O58, by induction over the run: both halts end it. -/
theorem atMostOneFaultRecordPerRun : Obligations.AtMostOneFaultRecordPerRun := by
  intro s t start noCause run
  induction run with
  | refl => exact .inl ⟨start, noCause, rfl⟩
  | tail _ hstep ih =>
    obtain ⟨running, effect⟩ := step_continues_or_halts hstep
    obtain ⟨-, cause, err⟩ | ⟨halted, -⟩ | ⟨_, halted, -⟩ := ih
    · rcases effect with ⟨err', status', cause'⟩ | rfl | ⟨c, rfl⟩
      · exact .inl ⟨status'.trans running, cause'.trans cause, err'.trans err⟩
      · exact .inr (.inl ⟨rfl, rfl, err⟩)
      · exact .inr (.inr ⟨_, rfl, rfl, (faultHalt_err _ c).trans (congrArg (· ++ _) err)⟩)
    · cases running.symm.trans halted
    · cases running.symm.trans halted

/-! ## Streams and the allocation pointer -/

/-- What every step and every run keeps: the trace of s begins that of t, and SP is no higher in t. -/
structure State.Extends (t s : State) : Prop where
  trace : s.trace <+: t.trace
  sp : t.sp ≤ s.sp

theorem State.Extends.refl (s : State) : s.Extends s :=
  ⟨List.prefix_rfl, le_rfl⟩

theorem State.Extends.trans {s t u : State} (hu : u.Extends t) (ht : t.Extends s) : u.Extends s :=
  ⟨ht.trace.trans hu.trace, hu.sp.trans ht.sp⟩

/-- Each stream is read off the trace event by event, so it grows with the trace. -/
theorem State.Extends.out {s t : State} (h : t.Extends s) : ∃ lines, t.out = s.out ++ lines := by
  obtain ⟨lines, eq⟩ : s.out <+: t.out := h.trace.filterMap _
  exact ⟨lines, eq.symm⟩

theorem State.Extends.err {s t : State} (h : t.Extends s) : ∃ records, t.err = s.err ++ records := by
  obtain ⟨records, eq⟩ : s.err <+: t.err := h.trace.filterMap _
  exact ⟨records, eq.symm⟩

theorem faultHalt_extends (s : State) (c : FaultCause) : (s.faultHalt c).Extends s :=
  ⟨List.prefix_append _ _, le_rfl⟩

theorem normalHalt_extends (s : State) : s.normalHalt.Extends s :=
  ⟨List.prefix_rfl, le_rfl⟩

theorem advance_extends (s : State) : s.advance.Extends s :=
  ⟨List.prefix_rfl, le_rfl⟩

theorem exec_extends {i : Instr} {s t : State} (h : exec i s = .next t) : t.Extends s := by
  cases exec_effect h with
  | raised c | noRegister r => exact faultHalt_extends s _
  | printed r v => exact ⟨List.prefix_append _ _, le_rfl⟩
  | allocated size => exact ⟨List.prefix_rfl, Int.sub_le_self _ (Int.natCast_nonneg size)⟩
  | _ => exact ⟨List.prefix_rfl, le_rfl⟩

theorem step_extends {s t : State} (h : step s = .next t) : t.Extends s := by
  obtain ⟨-, ⟨-, rfl⟩ | ⟨line, -, ⟨c, -, rfl⟩ | ⟨i, -, executed⟩⟩⟩ := step_cases h
  · exact normalHalt_extends s
  · exact (faultHalt_extends s.advance c).trans (advance_extends s)
  · exact (exec_extends executed).trans (advance_extends s)

/-- Settles O59, by induction over the run. -/
theorem streamsOnlyGrowAndPointerOnlyFalls : Obligations.StreamsOnlyGrowAndPointerOnlyFalls := by
  intro s t run
  have grown : t.Extends s :=
    reaches_induction (P := (State.Extends · s)) (.refl s) (fun _ _ hu hstep => (step_extends hstep).trans hu) run
  exact ⟨grown.out, grown.err, grown.sp⟩

end Sys2Proof.Machine
end

section
/-! SUPPORT. Fields an instruction does not read: it commutes with any update of them (R28, R42, R54). -/

namespace Sys2Proof.Machine

/-- The outcome with f applied to its next state. -/
def mapNext (f : State → State) : Host.Outcome State Fault Refusal → Host.Outcome State Fault Refusal
  | .next t => .next (f t)
  | .fault r => .fault r
  | .refused r => .refused r

/-- f leaves alone what the fetch, the operand forms and the control transfers read, and commutes with the
updates of every instruction but ALLOC and STORE and with the two halts. SP and the heap, which ALLOC, STORE and
LOAD alone use, stay out of it. -/
structure Unread (f : State → State) : Prop where
  params : ∀ s, (f s).params = s.params
  regs : ∀ s, (f s).regs = s.regs
  callStack : ∀ s, (f s).callStack = s.callStack
  prog : ∀ s, (f s).prog = s.prog
  labels : ∀ s, (f s).labels = s.labels
  pc : ∀ s, (f s).pc = s.pc
  status : ∀ s, (f s).status = s.status
  writeReg : ∀ s r v, (f s).writeReg r v = f (s.writeReg r v)
  emitOut : ∀ s line, (f s).emitOut line = f (s.emitOut line)
  transfer : ∀ s cs target,
    { f s with callStack := cs, pc := target } = f { s with callStack := cs, pc := target }
  normalHalt : ∀ s, (f s).normalHalt = f s.normalHalt
  faultHalt : ∀ s c, (f s).faultHalt c = f (s.faultHalt c)

namespace Unread
variable {f : State → State} (hf : Unread f)
include hf

/-! ## The operand forms -/

theorem setPc (s : State) (target : Nat) : (f s).setPc target = f (s.setPc target) :=
  calc (f s).setPc target
    _ = { f s with callStack := s.callStack, pc := target } := by rw [← hf.callStack s]; rfl
    _ = f (s.setPc target) := hf.transfer s s.callStack target

theorem raise (s : State) (c : FaultCause) : (f s).raise c = mapNext f (s.raise c) :=
  congrArg Host.Outcome.next (hf.faultHalt s c)

theorem withReg {s : State} {r : Reg} {use use' : Word → Host.Outcome State Fault Refusal}
    (huse : ∀ v, use' v = mapNext f (use v)) : (f s).withReg r use' = mapNext f (s.withReg r use) := by
  have read : (f s).readReg r = s.readReg r := congrArg (·[r.val]?) (hf.regs s)
  unfold State.withReg
  rw [read]
  cases s.readReg r with
  | some v => exact huse v
  | none => exact hf.raise s _

theorem withRegs {s : State} {r1 r2 : Reg} {use use' : Word → Word → Host.Outcome State Fault Refusal}
    (huse : ∀ a b, use' a b = mapNext f (use a b)) :
    (f s).withRegs r1 r2 use' = mapNext f (s.withRegs r1 r2 use) :=
  hf.withReg fun a => hf.withReg (huse a)

theorem next_writeReg (s : State) (r : Reg) (v : Word) :
    Host.Outcome.next ((f s).writeReg r v) = mapNext f (.next (s.writeReg r v)) :=
  congrArg Host.Outcome.next (hf.writeReg s r v)

theorem binary (s : State) (op : Params → Word → Word → Word) (r1 r2 : Reg) :
    (f s).binary op r1 r2 = mapNext f (s.binary op r1 r2) :=
  hf.withRegs fun a b => by rw [hf.params, hf.next_writeReg]

theorem withTarget {s : State} {name : Text} {use use' : Nat → Host.Outcome State Fault Refusal}
    (huse : ∀ p, use' p = mapNext f (use p)) :
    (f s).withTarget name use' = mapNext f (s.withTarget name use) := by
  have lookup : (f s).lookup name = s.lookup name := congrArg (tableGet name) (hf.labels s)
  unfold State.withTarget
  rw [lookup]
  cases s.lookup name with
  | some p => exact huse p
  | none => exact hf.raise s _

theorem withCell {s : State} {addr : Int} {use use' : Nat → Host.Outcome State Fault Refusal}
    (huse : ∀ a, heapCell? s.params addr = some a → use' a = mapNext f (use a)) :
    (f s).withCell addr use' = mapNext f (s.withCell addr use) := by
  unfold State.withCell
  rw [hf.params]
  cases hc : heapCell? s.params addr with
  | some a => exact huse a hc
  | none => exact hf.raise s _

theorem transferTo (s : State) (name : Text) :
    ((f s).withTarget name fun target => .next ((f s).setPc target)) =
      mapNext f (s.withTarget name fun target => .next (s.setPc target)) :=
  hf.withTarget fun target => congrArg Host.Outcome.next (hf.setPc s target)

/-! ## The instructions -/

/-- Every instruction commutes with f; ALLOC, STORE and LOAD if f also keeps what they alone use. -/
theorem exec {i : Instr} (s : State)
    (halloc : ∀ size, i = .alloc size → ∀ x, (f s).sp = s.sp ∧ { f s with sp := x } = f { s with sp := x })
    (hstore : ∀ a, storeCell s.params i = some a → ∀ v, (f s).memWrite a v = f (s.memWrite a v))
    (hload : ∀ r addr, i = .load r addr → ∀ a, (f s).memRead a = s.memRead a) :
    exec i (f s) = mapNext f (exec i s) := by
  cases i with
  | mov rd imm => exact hf.withReg fun _ => hf.next_writeReg s rd imm
  | add r1 r2 | sub r1 r2 | mul r1 r2 | exp r1 r2 | gt r1 r2 | lt r1 r2 | eq r1 r2 => exact hf.binary s _ r1 r2
  | div r1 r2 | mod r1 r2 =>
    refine hf.withRegs fun a b => ?_
    split
    · exact hf.raise s _
    · rw [hf.params, hf.next_writeReg]
  | print r => exact hf.withReg fun v => congrArg Host.Outcome.next (hf.emitOut s _)
  | jmp name => exact hf.transferTo s name
  | jeq r1 r2 name =>
    refine hf.withRegs fun a b => ?_
    split
    · exact hf.transferTo s name
    · rfl
  | call name =>
    refine hf.withTarget fun target => ?_
    have full : (f s).callStackFull = s.callStackFull := by
      unfold State.callStackFull
      rw [hf.params, hf.callStack]
    rw [full, hf.pc, hf.callStack]
    split
    · exact hf.raise s _
    · exact congrArg Host.Outcome.next (hf.transfer s _ target)
  | ret =>
    unfold Machine.exec execRet
    dsimp only
    rw [hf.callStack]
    cases s.callStack with
    | nil => exact hf.raise s _
    | cons target rest => exact congrArg Host.Outcome.next (hf.transfer s rest target)
  | alloc size =>
    obtain ⟨sp, update⟩ := halloc size rfl (s.sp - size)
    unfold Machine.exec execAlloc
    dsimp only
    rw [sp]
    split
    · exact hf.raise s _
    · exact congrArg Host.Outcome.next update
  | store r addr =>
    exact hf.withReg fun v => hf.withCell fun a hc => congrArg Host.Outcome.next (hstore a hc v)
  | load r addr =>
    refine hf.withReg fun _ => hf.withCell fun a _ => ?_
    rw [hload r addr rfl, hf.next_writeReg]
  | label name => rfl

/-- A step commutes with f if every execution does. -/
theorem step (hexec : ∀ i s, Machine.exec i (f s) = mapNext f (Machine.exec i s)) (s : State) :
    Machine.step (f s) = mapNext f (Machine.step s) := by
  have fetch : (f s).fetch = s.fetch := by rw [State.fetch, hf.prog, hf.pc, State.fetch]
  have advance : (f s).advance = f s.advance := by rw [State.advance, hf.pc, hf.setPc, State.advance]
  unfold Machine.step
  rw [hf.status, fetch, hf.params, advance, hf.normalHalt]
  split
  · rfl
  · rfl
  · split
    · rfl
    · split
      · exact hf.raise s.advance _
      · exact hexec _ s.advance

end Unread

/-! ## SP (R28, R54) -/

theorem unread_sp (x : Int) : Unread fun s => { s with sp := x } := by
  constructor <;> intros <;> rfl

/-- Settles O50: only ALLOC has a use for SP, and all other updates leave it in place. -/
theorem allocationPointerIsIndependent : Obligations.AllocationPointerIsIndependent := by
  intro i s t x notAlloc h
  have commutes := (unread_sp x).exec (i := i) s (fun size hi => absurd hi (notAlloc size))
    (fun _ _ _ => rfl) (fun _ _ _ _ => rfl)
  rwa [h] at commutes

/-! ## The heap (R25) -/

theorem unread_heap (h : Memory) : Unread fun s => { s with heap := h } := by
  constructor <;> intros <;> rfl

section Store
variable {s : State} {r : Reg} {addr : Int} {a : Nat}

theorem exec_store_of_readReg {v : Word} (hv : s.readReg r = some v) (hc : heapCell? s.params addr = some a) :
    exec (.store r addr) s = .next (s.memWrite a v) :=
  (withReg_some hv _).trans (withCell_some hc _)

theorem exec_store_of_noReg (hv : s.readReg r = none) :
    exec (.store r addr) s = .next (s.faultHalt (.registerOutOfRange r)) := by
  simp only [exec, execStore, State.withReg, hv, State.raise]

/-- A STORE to a cell writes its register there, into whatever heap it finds. -/
theorem exec_store_otherHeap {t : State} (h : Memory) (hc : heapCell? s.params addr = some a)
    (ht : exec (.store r addr) s = .next t) :
    ∃ h', exec (.store r addr) { s with heap := h } = .next { t with heap := h' } := by
  cases hv : s.readReg r with
  | some v =>
    cases (exec_store_of_readReg hv hc).symm.trans ht
    exact ⟨_, exec_store_of_readReg (s := { s with heap := h }) hv hc⟩
  | none =>
    cases (exec_store_of_noReg hv).symm.trans ht
    exact ⟨_, exec_store_of_noReg (s := { s with heap := h }) hv⟩

end Store

/-- Settles O51: without a cell to store to, an execution commutes with the change of heap. -/
theorem onlyLoadReadsHeap : Obligations.OnlyLoadReadsHeap := by
  intro i s t h notLoad ht
  cases hc : storeCell s.params i with
  | none =>
    have commutes := (unread_heap h).exec (i := i) s (fun _ _ _ => ⟨rfl, rfl⟩)
      (fun a ha => by cases hc.symm.trans ha) (fun r addr hi => absurd hi (notLoad r addr))
    rw [ht] at commutes
    exact ⟨h, commutes, fun _ => rfl⟩
  | some a =>
    cases i with
    | store r addr =>
      obtain ⟨h', stored⟩ := exec_store_otherHeap h hc ht
      exact ⟨h', stored, nofun⟩
    | _ => cases hc

/-! ## The streams (R42, R43) -/

theorem unread_trace (earlier : List Event) : Unread fun s => { s with trace := earlier ++ s.trace } := by
  constructor
  case emitOut => exact fun s line => by simp [State.emitOut]
  case faultHalt => exact fun s c => by simp [State.faultHalt, State.faultRecord]
  all_goals intros; rfl

/-- Settles O52: no instruction reads the trace, and each appends at its end. -/
theorem outputIsNeverReadBack : Obligations.OutputIsNeverReadBack := by
  intro s t earlier h
  have hf := unread_trace earlier
  have commutes := hf.step (fun i s => hf.exec s (fun _ _ _ => ⟨rfl, rfl⟩) (fun _ _ _ => rfl)
    (fun _ _ _ _ => rfl)) s
  rwa [h] at commutes

end Sys2Proof.Machine
end

section
/-! SUPPORT. The machine's invariant under one step and under the host's operations (R20, R25, R27, R30, R33,
R39, R112). -/

namespace Sys2Proof

/-! ## Results in range (R112) -/

/-- The results of the comparisons and of EXP's special cases are Words, since R8 requires two bits. -/
theorem isWord_of_abs_le_one {W : Nat} (hW : 2 ≤ W) {v : Int} (lower : -1 ≤ v) (upper : v ≤ 1) :
    isWord W v = true := by
  have two_le : (2 : Int) ≤ 2 ^ (W - 1) := by
    simpa using pow_le_pow_right₀ (one_le_two : (1 : Int) ≤ 2) (show 1 ≤ W - 1 by omega)
  exact isWord_iff.mpr ⟨by omega, by omega⟩

/-- A truncated remainder lies between zero and the dividend. -/
theorem isWord_tmod {W : Nat} {a : Int} (b : Int) (ha : isWord W a = true) : isWord W (Int.tmod a b) = true := by
  rw [isWord_iff] at ha ⊢
  have half_pos : (0 : Int) < 2 ^ (W - 1) := by positivity
  have smaller : (Int.tmod a b).natAbs ≤ a.natAbs := Int.natAbs_tmod a b ▸ Nat.mod_le _ _
  rcases le_total 0 a with nonneg | nonpos
  · have := Int.tmod_nonneg b nonneg
    omega
  · have := Int.neg_tmod a b ▸ Int.tmod_nonneg b (neg_nonneg.mpr nonpos)
    omega

theorem integerField_mov_isWord {p : Params} {line : Text} {v : Int}
    (h : integerField p .mov line = some v) : isWord p.W v = true := by
  simp only [integerField, Keyword.format, Format.integerOffset] at h
  split at h
  · cases h
  · next w _ =>
    cases hw : isWord p.W w <;> simp_all

theorem assemble_eq_mov {kw : Keyword} {rs : List Reg} {v imm : Int} {name : Text} {rd : Reg}
    (h : assemble kw rs v name = .mov rd imm) : kw = .mov ∧ v = imm := by
  cases kw <;> cases h
  exact ⟨rfl, rfl⟩

/-- A decoded immediate is a Word (R76). -/
theorem decode_mov_isWord {p : Params} {line : Text} {rd : Reg} {imm : Word}
    (h : decode p line = .ok (.mov rd imm)) : isWord p.W imm = true := by
  unfold decode at h
  split at h
  · cases h
  · split at h
    · split at h
      · cases h
      · next v hv =>
        split at h
        · cases h
        · obtain ⟨rfl, rfl⟩ := assemble_eq_mov (Except.ok.inj h)
          exact integerField_mov_isWord hv
    · cases h

namespace Machine

section Words
variable {p : Params} (hp : p.valid = true)
include hp

theorem two_le_W_of_valid : 2 ≤ p.W := by
  simp only [Params.valid, Bool.and_eq_true, decide_eq_true_eq] at hp
  obtain ⟨⟨⟨-, hW⟩, -⟩, -⟩ := hp
  exact hW

theorem isWord_wrap_of_valid (v : Int) : isWord p.W (wrap p.W v) = true :=
  isWord_wrap (one_le_two.trans (two_le_W_of_valid hp)) v

theorem isWord_truthWord (c : Bool) : isWord p.W (truthWord c) = true := by
  cases c <;> exact isWord_of_abs_le_one (two_le_W_of_valid hp) (by decide) (by decide)

theorem isWord_expWord (b e : Word) : isWord p.W (expWord p b e) = true := by
  have small : ∀ v : Int, -1 ≤ v → v ≤ 1 → isWord p.W v = true :=
    fun v => isWord_of_abs_le_one (two_le_W_of_valid hp)
  unfold expWord
  split_ifs
  · exact isWord_wrap_of_valid hp _
  · exact small 1 (by decide) (by decide)
  · exact small 1 (by decide) (by decide)
  · exact small (-1) (by decide) (by decide)
  · exact isWord_wrap_of_valid hp _
  · exact small 0 (by decide) (by decide)

end Words

theorem isWord_modWord {p : Params} {a : Word} (b : Word) (ha : isWord p.W a = true) :
    isWord p.W (modWord p a b) = true := by
  rw [modWord, ← Int.tmod_def]
  exact isWord_tmod b ha

/-! ## Registers hold Words (R20) -/

theorem isWord_of_readReg {s : State} {r : Reg} {v : Word} (hs : s.regsOk) (h : s.readReg r = some v) :
    isWord s.params.W v = true :=
  hs.2 v (List.mem_of_getElem? h)

theorem isWord_memRead {s : State} (hp : s.params.valid = true) (hs : s.heapOk) (a : Nat) :
    isWord s.params.W (s.memRead a) = true := by
  unfold State.memRead
  cases h : tableGet a s.heap with
  | some v => exact (hs.2 _ (mem_of_tableGet h)).2
  | none => exact isWord_wrap_of_valid hp _

theorem writeReg_regsOk {s : State} {v : Word} (hs : s.regsOk) (r : Reg) (hv : isWord s.params.W v = true) :
    (s.writeReg r v).regsOk := by
  refine ⟨(writeReg_regs_length s r v).trans hs.1, fun w hw => ?_⟩
  rcases List.mem_or_eq_of_mem_set hw with hw | rfl
  · exact hs.2 w hw
  · exact hv

theorem binary_keeps_regsOk {s t : State} {op : Params → Word → Word → Word} {r1 r2 : Reg} (hs : s.regsOk)
    (h : s.binary op r1 r2 = .next t) (hop : ∀ a b, isWord s.params.W (op s.params a b) = true) : t.regsOk := by
  rcases binary_cases h with ⟨a, b, -, -, rfl⟩ | ⟨r, -, -, rfl⟩
  · exact writeReg_regsOk hs r1 (hop a b)
  · exact hs

theorem exec_keeps_regsOk_of_no_dest {i : Instr} {s t : State} (hs : s.regsOk) (h : exec i s = .next t)
    (hd : destReg i = none) : t.regsOk := by
  rw [State.regsOk, exec_regs_of_no_dest h hd, exec_params h]
  exact hs

theorem exec_keeps_regsOk {i : Instr} {s t : State} (hp : s.params.valid = true) (hs : s.regsOk) (hheap : s.heapOk)
    (himm : ∀ rd imm, i = .mov rd imm → isWord s.params.W imm = true) (h : exec i s = .next t) : t.regsOk := by
  cases i with
  | mov rd imm =>
    rcases withReg_cases h with ⟨_, -, h⟩ | ⟨-, h⟩ <;> cases h
    · exact writeReg_regsOk hs rd (himm rd imm rfl)
    · exact hs
  | add r1 r2 | sub r1 r2 | mul r1 r2 => exact binary_keeps_regsOk hs h fun _ _ => isWord_wrap_of_valid hp _
  | exp r1 r2 => exact binary_keeps_regsOk hs h (isWord_expWord hp)
  | gt r1 r2 | lt r1 r2 | eq r1 r2 => exact binary_keeps_regsOk hs h fun _ _ => isWord_truthWord hp _
  | div r1 r2 =>
    rcases withRegs_cases h with ⟨a, b, -, -, h⟩ | ⟨_, -, -, h⟩
    · split at h <;> cases h
      · exact hs
      · exact writeReg_regsOk hs r1 (isWord_wrap_of_valid hp _)
    · cases h; exact hs
  | mod r1 r2 =>
    rcases withRegs_cases h with ⟨a, b, ha, -, h⟩ | ⟨_, -, -, h⟩
    · split at h <;> cases h
      · exact hs
      · exact writeReg_regsOk hs r1 (isWord_modWord b (isWord_of_readReg hs ha))
    · cases h; exact hs
  | load r addr =>
    rcases withReg_cases h with ⟨_, -, h⟩ | ⟨-, h⟩
    · rcases withCell_cases h with ⟨a, -, -, h⟩ | ⟨-, h⟩ <;> cases h
      · exact writeReg_regsOk hs r (isWord_memRead hp hheap a)
      · exact hs
    · cases h; exact hs
  | print _ | jmp _ | jeq _ _ _ | call _ | ret | alloc _ | store _ _ | label _ =>
    exact exec_keeps_regsOk_of_no_dest hs h rfl

/-! ## The other parts of the invariant -/

section Parts
variable {i : Instr} {s t : State}

theorem memWrite_heapOk {a : Nat} {v : Word} (hs : s.heapOk) (ha : a < s.params.M)
    (hv : isWord s.params.W v = true) : (s.memWrite a v).heapOk := by
  refine ⟨heap_wf_tableSet a v s.heap hs.1, fun e he => ?_⟩
  rcases mem_tableSet he with rfl | he
  · exact ⟨ha, hv⟩
  · exact hs.2 e he

theorem exec_keeps_heapOk (hregs : s.regsOk) (hs : s.heapOk) (h : exec i s = .next t) : t.heapOk := by
  cases exec_effect h with
  | stored r addr a v hi hc hv =>
    subst hi
    exact memWrite_heapOk hs (heapCell_eq_some hc).2 (isWord_of_readReg hregs hv)
  | _ => exact hs

/-- ALLOC lowers SP, and only to 0 or more (R145). -/
theorem exec_keeps_spOk (hs : s.spOk) (h : exec i s = .next t) : t.spOk := by
  cases exec_effect h with
  | allocated size _ hn => exact ⟨hn, (Int.sub_le_self _ (Int.natCast_nonneg size)).trans hs.2⟩
  | _ => exact hs

theorem exec_keeps_labelsOk (hs : s.labelsOk) (h : exec i s = .next t) : t.labelsOk := by
  rw [State.labelsOk, exec_labels h, exec_prog h]
  exact hs

theorem depthOk_iff : s.depthOk ↔ ∀ D, s.params.depth = some D → s.callStack.length ≤ D := by
  simp [State.depthOk, Option.all_eq_true]

/-- CALL pushes only onto a stack that is not full, and RET shortens it. -/
theorem exec_keeps_depthOk (hs : s.depthOk) (h : exec i s = .next t) : t.depthOk := by
  rw [depthOk_iff] at hs ⊢
  cases exec_effect h with
  | called name target _ _ notFull =>
    intro D hD
    have atMost := hs D hD
    have notEqual : s.callStack.length ≠ D := fun e => by
      simp [(callStackFull_eq_true (s := s)).mpr ⟨D, hD, e⟩] at notFull
    exact Nat.lt_of_le_of_ne atMost notEqual
  | returned target rest _ hc =>
    intro D hD
    have atMost := hs D hD
    rw [hc] at atMost
    exact Nat.le_of_succ_le atMost
  | _ => exact hs

theorem exec_keeps_haltOk (hs : s.haltOk) (h : exec i s = .next t) : t.haltOk := by
  rcases exec_continues_or_faults h with ⟨-, status, cause⟩ | ⟨c, rfl⟩
  · rw [State.haltOk, status, cause]
    exact hs
  · exact iff_of_false nofun fun notHalted => notHalted rfl

theorem exec_keeps_Inv (hs : s.Inv) (himm : ∀ rd imm, i = .mov rd imm → isWord s.params.W imm = true)
    (h : exec i s = .next t) : t.Inv := by
  obtain ⟨hp, hregs, hheap, hsp, hlabels, hdepth, hhalt⟩ := hs
  exact ⟨exec_params h ▸ hp, exec_keeps_regsOk hp hregs hheap himm h, exec_keeps_heapOk hregs hheap h,
    exec_keeps_spOk hsp h, exec_keeps_labelsOk hlabels h, exec_keeps_depthOk hdepth h, exec_keeps_haltOk hhalt h⟩

end Parts

/-- A halt sets status and halt cause together and touches no other part of the invariant. -/
theorem normalHalt_Inv {s : State} (hs : s.Inv) : s.normalHalt.Inv := by
  obtain ⟨hp, hregs, hheap, hsp, hlabels, hdepth, -⟩ := hs
  exact ⟨hp, hregs, hheap, hsp, hlabels, hdepth, iff_of_false nofun fun notHalted => notHalted rfl⟩

theorem faultHalt_Inv {s : State} (hs : s.Inv) (c : FaultCause) : (s.faultHalt c).Inv := by
  obtain ⟨hp, hregs, hheap, hsp, hlabels, hdepth, -⟩ := hs
  exact ⟨hp, hregs, hheap, hsp, hlabels, hdepth, iff_of_false nofun fun notHalted => notHalted rfl⟩

/-- Settles O54: the fetch's pc increment is no part of the invariant, and each halt and each execution of a
decoded instruction keeps it. -/
theorem stepKeepsInvariant : Obligations.StepKeepsInvariant := by
  intro s t hs h
  have fetched : s.advance.Inv := hs
  obtain ⟨-, ⟨-, rfl⟩ | ⟨line, -, ⟨c, -, rfl⟩ | ⟨i, decoded, executed⟩⟩⟩ := step_cases h
  · exact normalHalt_Inv hs
  · exact faultHalt_Inv fetched c
  · refine exec_keeps_Inv fetched ?_ executed
    rintro rd imm rfl
    exact decode_mov_isWord decoded

/-! ## The host's operations -/

/-- Every entry of the pre-pass's table was there before, or is a named line of the program (R87). -/
theorem mem_of_prepass {lines : List Text} {i : Nat} {labels table : LabelTable} {e : Text × Nat}
    (h : prepass i labels lines = .ok table) (he : e ∈ table) :
    e ∈ labels ∨ (e.1 ≠ [] ∧ e.2 < i + lines.length) := by
  induction lines generalizing i labels with
  | nil => cases h; exact .inl he
  | cons line rest ih =>
    have positions : i + (line :: rest).length = i + 1 + rest.length := by simp; omega
    rw [positions]
    simp only [prepass] at h
    split at h
    · exact ih h
    · next name hname =>
      split at h
      · cases h
      · rcases ih h with hmem | hnew
        · rcases mem_tableSet hmem with rfl | hmem
          · exact .inr ⟨(labelNameOf_eq_some.mp hname).1, by dsimp only; omega⟩
          · exact .inl hmem
        · exact .inr hnew

theorem hostLoad_keeps_Inv {s t : State} {lines : List Text} (hs : s.Inv) (h : s.hostLoad lines = .next t) :
    t.Inv := by
  obtain ⟨hp, hregs, hheap, hsp, -, hdepth, hhalt⟩ := hs
  obtain ⟨-, table, htable, rfl⟩ := hostLoad_next h
  have entries : ∀ e ∈ table, e.1 ≠ [] ∧ e.2 ≤ lines.length := by
    intro e he
    rcases mem_of_prepass htable he with hmem | ⟨hname, hpos⟩
    · cases hmem
    · exact ⟨hname, by omega⟩
  exact ⟨hp, hregs, hheap, hsp, ⟨prepass_wf List.Pairwise.nil htable, entries⟩, hdepth, hhalt⟩

theorem hostRegister_keeps_Inv {s t : State} {name : Text} {p : Int} (hs : s.Inv)
    (h : s.hostRegister name p = .next t) : t.Inv := by
  obtain ⟨hp, hregs, hheap, hsp, ⟨hwf, hentries⟩, hdepth, hhalt⟩ := hs
  obtain ⟨-, ⟨hname, -, hpos⟩, rfl⟩ := hostRegister_next h
  have entries : ∀ e ∈ tableSet name p.toNat s.labels, e.1 ≠ [] ∧ e.2 ≤ s.prog.length := by
    intro e he
    rcases mem_tableSet he with rfl | hmem
    · exact ⟨hname, Int.toNat_le.mpr hpos⟩
    · exact hentries e hmem
  exact ⟨hp, hregs, hheap, hsp, ⟨labels_wf_tableSet _ _ _ hwf, entries⟩, hdepth, hhalt⟩

theorem hostRun_keeps_Inv {s t : State} (hs : s.Inv) (h : s.hostRun = .next t) : t.Inv := by
  obtain ⟨hp, hregs, hheap, hsp, hlabels, hdepth, -⟩ := hs
  obtain ⟨-, rfl⟩ := hostRun_next h
  exact ⟨hp, hregs, hheap, hsp, hlabels, hdepth, iff_of_true rfl nofun⟩

/-- Settles O55, operation by operation. -/
theorem hostOperationsKeepInvariant : Obligations.HostOperationsKeepInvariant := fun _ _ hs =>
  ⟨fun _ => hostLoad_keeps_Inv hs, fun _ _ => hostRegister_keeps_Inv hs, hostRun_keeps_Inv hs⟩

end Machine
end Sys2Proof
end

section
/-! SUPPORT. A stored Word stays in its cell until the next STORE there (R48, R49, R148). -/

namespace Sys2Proof.Machine

theorem step_params {s t : State} (h : step s = .next t) : t.params = s.params := by
  obtain ⟨-, ⟨-, rfl⟩ | ⟨-, -, ⟨c, -, rfl⟩ | ⟨i, -, executed⟩⟩⟩ := step_cases h
  · rfl
  · rfl
  · exact (exec_params executed).trans (advance_params s)

/-- The heap's frame over a step: a halt keeps the heap, and an execution keeps every cell it does not store
to. -/
theorem step_memRead {s t : State} {a : Nat} (h : step s = .next t)
    (notStored : ∀ line i, s.prog[s.pc]? = some line → decode s.params line = .ok i →
      storeCell s.params i ≠ some a) :
    t.memRead a = s.memRead a := by
  obtain ⟨-, ⟨-, rfl⟩ | ⟨line, fetched, ⟨c, -, rfl⟩ | ⟨i, decoded, executed⟩⟩⟩ := step_cases h
  · rfl
  · rfl
  · exact onlyStoredCellChanges i s.advance t a executed (notStored line i fetched decoded)

theorem exec_load_of_hasReg {s : State} {r : Reg} {addr : Int} {a : Nat} (hr : s.hasReg r)
    (hc : heapCell? s.params addr = some a) :
    exec (.load r addr) s = .next (s.writeReg r (s.memRead a)) := by
  obtain ⟨old, hold⟩ := readReg_of_hasReg hr
  exact (withReg_some hold _).trans (withCell_some hc _)

/-- Settles O46, by induction on the number of steps: the parameters, and so the cell the address names, and
the Word stored there are those the STORE left. -/
theorem loadAfterRunReadsStoredWord : Obligations.LoadAfterRunReadsStoredWord := by
  intro r q a s v run n hv ha stored quiet hq
  have start : s.memWrite a v = run 0 := by
    simpa [exec_store_of_readReg hv (heapCell_of_nat ha)] using stored
  have kept : (run n).params = s.params ∧ (run n).memRead a = v := by
    clear hq
    induction n with
    | zero => exact start ▸ ⟨rfl, memRead_memWrite_self s a v⟩
    | succ n ih =>
      obtain ⟨params, cell⟩ := ih fun k hk => quiet k (Nat.lt_succ_of_lt hk)
      obtain ⟨stepped, notStored⟩ := quiet n (Nat.lt_succ_self n)
      exact ⟨(step_params stepped).trans params, (step_memRead stepped notStored).trans cell⟩
  obtain ⟨params, cell⟩ := kept
  have named : heapCell? (run n).params a = some a := heapCell_of_nat (params ▸ ha)
  rw [exec_load_of_hasReg hq named, cell, State.writeReg]

end Sys2Proof.Machine
end

section
/-! SUPPORT. The integer field of R64, the format tables R66 to R74 read as lines, and what the decoder of R75
answers for a line. -/

namespace Sys2Proof
open Sys2Proof.Machine

/-! ## Integer fields (R64) -/

theorem isDigit_iff {c : Char} : c.isDigit = true ↔ '0'.toNat ≤ c.toNat ∧ c.toNat ≤ '9'.toNat := by
  simp only [Char.isDigit, Bool.and_eq_true, decide_eq_true_eq]
  exact Iff.rfl

theorem isDigits_iff {t : Text} :
    isDigits t = true ↔ t ≠ [] ∧ ∀ c ∈ t, '0'.toNat ≤ c.toNat ∧ c.toNat ≤ '9'.toNat := by
  simp [isDigits, isDigit_iff]

theorem parseInteger_eq_some_iff {t : Text} {v : Int} : parseInteger t = some v ↔
    ∃ ds, isDigits ds = true ∧ ((t = ds ∧ v = (Nat.ofDigitChars 10 ds 0 : Int)) ∨
      (t = '-' :: ds ∧ v = -(Nat.ofDigitChars 10 ds 0 : Int))) := by
  constructor
  · intro parsed
    unfold parseInteger at parsed
    split at parsed <;> split at parsed
    · next minus digits =>
      exact ⟨t.tail, digits, .inr ⟨(List.cons_head?_tail minus).symm, (Option.some.inj parsed).symm⟩⟩
    · cases parsed
    · next digits => exact ⟨t, digits, .inl ⟨rfl, (Option.some.inj parsed).symm⟩⟩
    · cases parsed
  · rintro ⟨ds, digits, ⟨rfl, rfl⟩ | ⟨rfl, rfl⟩⟩
    · exact parseInteger_of_digits digits
    · exact parseInteger_neg digits

/-- Settles O12: the digit fold the statement writes out is the library's value of a digit string. -/
theorem integerFieldSyntax : Obligations.IntegerFieldSyntax := by
  intro t v
  simp only [parseInteger_eq_some_iff, isDigits_iff, and_assoc, Nat.ofDigitChars_eq_foldl]

/-! ## The lines of a keyword

In every format of R66 to R74 a line is its keyword, then register fields of three characters each, then, in
the formats that have an integer or a label field, a space and the text of that field. -/

/-- The format ends in an integer field or a label field. -/
def Format.hasText (f : Format) : Bool :=
  (f.integerOffset 0).isSome || (f.nameOffset 0).isSome

/-- The line of keyword kw with register fields rs and, where its format has one, the text field t. -/
def Keyword.line (kw : Keyword) (rs : List Reg) (t : Text) : Text :=
  kw.text ++ (rs.flatMap encReg ++ if kw.format.hasText then encName t else [])

theorem line_of_hasText {kw : Keyword} (text : kw.format.hasText = true) (rs : List Reg) (t : Text) :
    kw.line rs t = (kw.text ++ rs.flatMap encReg ++ [' ']) ++ t := by
  simp [Keyword.line, text, encName]

theorem line_of_not_hasText {kw : Keyword} (noText : kw.format.hasText = false) (rs : List Reg) (t : Text) :
    kw.line rs t = kw.text ++ rs.flatMap encReg := by
  simp [Keyword.line, noText]

theorem keywordOf_line (kw : Keyword) (rs : List Reg) (t : Text) : keywordOf (kw.line rs t) = kw.text := by
  cases rs with
  | cons r rs => exact keywordOf_append kw _
  | nil =>
    cases text : kw.format.hasText with
    | true => simpa [line_of_hasText text] using keywordOf_append kw t
    | false => rw [line_of_not_hasText text]; cases kw <;> rfl

theorem length_flatMap_encReg (rs : List Reg) : (rs.flatMap encReg).length = 3 * rs.length := by
  simp [List.length_flatMap, encReg, mul_comm]

theorem drop_line {kw : Keyword} (text : kw.format.hasText = true) (rs : List Reg) (t : Text) :
    (kw.line rs t).drop (kw.text.length + 3 * rs.length + 1) = t := by
  rw [line_of_hasText text]
  exact List.drop_left' (by simp only [List.length_append, length_flatMap_encReg, List.length_singleton])

theorem eq_text_append_drop {kw : Keyword} {s : Text} (h : keywordOf s = kw.text) :
    s = kw.text ++ s.drop kw.text.length := by
  have split := keywordOf_prefix s
  rw [h] at split
  conv_rhs => rw [← split, List.drop_left]
  exact split.symm

/-! ## The shape checks of R75 -/

theorem cons_prefix_drop_iff {a : Char} {l s : Text} {o : Nat} :
    a :: l <+: s.drop o ↔ s[o]? = some a ∧ l <+: s.drop (o + 1) := by
  rw [← List.head?_drop, ← List.tail_drop]
  cases s.drop o with
  | nil => simp
  | cons b rest => simp [List.cons_prefix_cons, eq_comm]

/-- There is a digit at an offset exactly when the digit of its own value is there. -/
theorem any_isDigit_iff {s : Text} {o : Nat} :
    s[o]?.any Char.isDigit = true ↔ s[o]? = some (Nat.digitChar (digitValue (s.getD o '0')).val) := by
  rw [List.getD_eq_getElem?_getD]
  cases s[o]? with
  | none => simp
  | some c =>
    simp only [Option.any_some, Option.getD_some, Option.some.injEq]
    exact ⟨fun digit => (digitChar_digitValue digit).symm, fun h => h ▸ isDigit_digitChar _⟩

/-- The fixed characters and the digits of a format (R66 to R74) say that its register fields, and the space
before its text field, follow the keyword. -/
theorem shapeOk_iff_prefix (kw : Keyword) (s : Text) : shapeOk kw s = true ↔
    ((registerFields kw s).flatMap encReg ++ if kw.format.hasText then [' '] else []) <+:
        s.drop kw.text.length ∧
      if kw.format.hasText then kw.text.length + 3 * (registerFields kw s).length + 2 ≤ s.length
      else s.length = kw.text.length + 3 * (registerFields kw s).length := by
  cases kw <;>
    simp [shapeOk, registerFields, Keyword.text, Keyword.format, Format.lengthOk, Format.fixedChars,
      Format.digitOffsets, Format.hasText, Format.integerOffset, Format.nameOffset, encReg,
      cons_prefix_drop_iff, any_isDigit_iff] <;> tauto

/-- A line passes the shape checks of its keyword exactly when it is the line of its own fields. -/
theorem shapeOk_iff {kw : Keyword} {s : Text} (h : keywordOf s = kw.text) : shapeOk kw s = true ↔
    ∃ t, s = kw.line (registerFields kw s) t ∧ (kw.format.hasText = true → t ≠ []) := by
  rw [shapeOk_iff_prefix]
  generalize registerFields kw s = rs
  have whole := eq_text_append_drop h
  generalize s.drop kw.text.length = rest at whole
  subst whole
  cases text : kw.format.hasText with
  | false =>
    simp only [line_of_not_hasText text, List.append_cancel_left_eq, List.length_append]
    constructor
    · rintro ⟨⟨t, rfl⟩, length⟩
      have : t = [] := List.length_eq_zero_iff.mp <| by
        simpa [length_flatMap_encReg, -List.length_flatMap] using length
      exact ⟨[], by simp [this], nofun⟩
    · rintro ⟨t, rfl, -⟩
      simp [length_flatMap_encReg, -List.length_flatMap]
  | true =>
    simp only [line_of_hasText text, List.append_assoc, List.append_cancel_left_eq, List.length_append]
    constructor
    · rintro ⟨⟨t, rfl⟩, length⟩
      refine ⟨t, by simp, ?_⟩
      rintro - rfl
      simp [length_flatMap_encReg, -List.length_flatMap, add_assoc] at length
    · rintro ⟨t, rfl, nonempty⟩
      have := List.length_pos_iff.mpr (nonempty trivial)
      refine ⟨⟨t, by simp⟩, ?_⟩
      simp only [if_true, List.length_append, length_flatMap_encReg, List.length_singleton]
      omega

/-! ## The fields of a line -/

section Fields
variable {kw : Keyword} {s t : Text} {o : Nat} (hs : s = kw.line (registerFields kw s) t)
include hs

/-- The integer field and the label field both start after the space that follows the register fields. -/
theorem drop_textOffset
    (h : kw.format.integerOffset kw.text.length = some o ∨ kw.format.nameOffset kw.text.length = some o) :
    s.drop o = t := by
  have offset : kw.format.hasText = true ∧ o = kw.text.length + 3 * (registerFields kw s).length + 1 := by
    clear hs
    revert h
    cases kw <;> simp [Keyword.format, Keyword.text, registerFields, Format.hasText, Format.integerOffset,
      Format.nameOffset, Format.digitOffsets, eq_comm]
  obtain ⟨text, rfl⟩ := offset
  have dropped := drop_line text (registerFields kw s) t
  rwa [← hs] at dropped

theorem nameField_of_line (h : kw.format.nameOffset kw.text.length = some o) : nameField kw s = t := by
  rw [nameField, h]
  exact drop_textOffset hs (.inr h)

/-- R64 with R76 and R77: which integer field a line has. -/
theorem integerField_of_line (p : Params) (v : Int) (h : kw.format.integerOffset kw.text.length = some o) :
    integerField p kw s = some v ↔
      parseInteger t = some v ∧ (kw = .mov → isWord p.W v = true) ∧ (kw = .alloc → 0 ≤ v) := by
  rw [integerField, h]
  simp only [drop_textOffset hs (.inl h)]
  cases parseInteger t with
  | none => simp
  | some w =>
    by_cases same : w = v
    · subst same
      cases kw <;> simp
    · simp [same]

end Fields

/-! ## What a line spells -/

/-- The integer field of an instruction, 0 where its format has none. -/
def Instr.integer : Instr → Int
  | .mov _ v | .store _ v | .load _ v => v
  | .alloc size => size
  | _ => 0

/-- The text t spells the integer or is the name of the instruction, where it has one. -/
def Instr.readsText (t : Text) : Instr → Prop
  | .mov _ v | .store _ v | .load _ v => parseInteger t = some v
  | .alloc size => parseInteger t = some (size : Int)
  | .jmp name | .jeq _ _ name | .call name | .label name => t = name
  | _ => True

theorem spells_iff {s : Text} {i : Instr} :
    spells s i ↔ ∃ t, s = i.keyword.line (regOperands i) t ∧ i.readsText t := by
  cases i <;>
    simp [spells, Keyword.line, Instr.keyword, Keyword.text, regOperands, encReg, encName, Keyword.format,
      Format.hasText, Format.integerOffset, Format.nameOffset, Instr.readsText]

theorem registerFields_line (i : Instr) (t : Text) :
    registerFields i.keyword (i.keyword.line (regOperands i) t) = regOperands i := by
  cases i <;>
    simp [Keyword.line, Instr.keyword, Keyword.text, regOperands, encReg, registerFields, Keyword.format,
      Format.digitOffsets]

theorem keyword_assemble (kw : Keyword) (rs : List Reg) (v : Int) (name : Text) :
    (assemble kw rs v name).keyword = kw := by
  cases kw <;> rfl

theorem regOperands_assemble (kw : Keyword) (s : Text) (v : Int) (name : Text) :
    regOperands (assemble kw (registerFields kw s) v name) = registerFields kw s := by
  cases kw <;> rfl

/-! ### Well-formedness but for the register range

With ten registers every register digit is in range (R63). -/

theorem regOk_ten (p : Params) (r : Reg) : regOk { p with N := 10 } r = true :=
  decide_eq_true r.isLt

theorem wf_iff {p : Params} {i : Instr} :
    i.wf p = true ↔ i.wf { p with N := 10 } = true ∧ ∀ r ∈ regOperands i, regOk p r = true := by
  cases i <;> simp [Instr.wf, regOperands, regOk_ten, and_comm]

/-- An assembled instruction has the fields it was assembled from. -/
theorem assemble_reads_wf {p : Params} {kw : Keyword} {s t : Text} {v : Int}
    (hs : s = kw.line (registerFields kw s) t) (nonempty : kw.format.hasText = true → t ≠ [])
    (hv : integerField p kw s = some v) :
    (assemble kw (registerFields kw s) v (nameField kw s)).readsText t ∧
      (assemble kw (registerFields kw s) v (nameField kw s)).wf { p with N := 10 } = true := by
  have integer {o} (h : kw.format.integerOffset kw.text.length = some o) :=
    (integerField_of_line hs p v h).mp hv
  have name {o} (h : kw.format.nameOffset kw.text.length = some o) := nameField_of_line hs h
  cases kw <;>
    simp [assemble, Instr.readsText, Instr.wf, regOk_ten, nameOk, nonempty, integer, name, Format.hasText,
      Keyword.format, Format.integerOffset, Format.nameOffset]

theorem text_ne_nil_of_wf {p : Params} {i : Instr} {t : Text} (wf : i.wf p = true) (reads : i.readsText t)
    (text : i.keyword.format.hasText = true) : t ≠ [] := by
  rintro rfl
  cases i <;> cases reads <;> cases text <;> simp [Instr.wf, nameOk] at wf

section Spelled
variable {s t : Text} {i : Instr} (hs : s = i.keyword.line (registerFields i.keyword s) t)
  (reads : i.readsText t)
include hs reads

theorem integerField_of_reads {p : Params} (wf : i.wf p = true) :
    integerField p i.keyword s = some i.integer := by
  cases i with
  | mov rd v =>
    obtain ⟨-, word⟩ := Bool.and_eq_true_iff.mp wf
    exact (integerField_of_line hs p v rfl).mpr ⟨reads, fun _ => word, nofun⟩
  | alloc size =>
    exact (integerField_of_line hs p size rfl).mpr ⟨reads, nofun, fun _ => Int.natCast_nonneg size⟩
  | store r v => exact (integerField_of_line hs p v rfl).mpr ⟨reads, nofun, nofun⟩
  | load r v => exact (integerField_of_line hs p v rfl).mpr ⟨reads, nofun, nofun⟩
  | _ => rfl

theorem assemble_of_reads : assemble i.keyword (regOperands i) i.integer (nameField i.keyword s) = i := by
  cases i with
  | jmp name => exact congrArg Instr.jmp ((nameField_of_line hs rfl).trans reads)
  | jeq r1 r2 name => exact congrArg (Instr.jeq r1 r2) ((nameField_of_line hs rfl).trans reads)
  | call name => exact congrArg Instr.call ((nameField_of_line hs rfl).trans reads)
  | label name => exact congrArg Instr.label ((nameField_of_line hs rfl).trans reads)
  | _ => rfl

end Spelled

/-! ## The decoder -/

/-- The line passes every check of R75 before the register range (R79), and its fields make up i. -/
def ReadsAs (p : Params) (s : Text) (i : Instr) : Prop :=
  ∃ kw v, keywordOf s = kw.text ∧ shapeOk kw s = true ∧ integerField p kw s = some v ∧
    assemble kw (registerFields kw s) v (nameField kw s) = i

/-- The decoder's reading of fixed offsets (R75) and the format tables (R66 to R74) agree on every line. -/
theorem readsAs_iff {p : Params} {s : Text} {i : Instr} :
    ReadsAs p s i ↔ spells s i ∧ i.wf { p with N := 10 } = true := by
  rw [spells_iff]
  constructor
  · rintro ⟨kw, v, keyword, shape, integer, rfl⟩
    obtain ⟨t, hs, nonempty⟩ := (shapeOk_iff keyword).mp shape
    obtain ⟨reads, wf⟩ := assemble_reads_wf hs nonempty integer
    rw [keyword_assemble, regOperands_assemble]
    exact ⟨⟨t, hs, reads⟩, wf⟩
  · rintro ⟨⟨t, hs, reads⟩, wf⟩
    have registers : registerFields i.keyword s = regOperands i := hs ▸ registerFields_line i t
    have keyword : keywordOf s = i.keyword.text := hs ▸ keywordOf_line _ _ t
    rw [← registers] at hs
    exact ⟨i.keyword, i.integer, keyword, (shapeOk_iff keyword).mpr ⟨t, hs, text_ne_nil_of_wf wf reads⟩,
      integerField_of_reads (p := { p with N := 10 }) hs reads wf, registers ▸ assemble_of_reads hs reads⟩

/-- The last check of R75: the register range (R79), by increasing offset. -/
def rangeCheck (p : Params) (i : Instr) : Except FaultCause Instr :=
  match (regOperands i).find? (fun d => !regOk p d) with
  | some d => .error (.registerOutOfRange d)
  | none => .ok i

/-- R79's "d >= N" is the failure of R24's "d < N". -/
theorem not_regOk (p : Params) : (fun d => !regOk p d) = fun r : Reg => decide (p.N ≤ r.val) := by
  funext d
  simp [regOk, ← decide_not]

theorem rangeCheck_eq_ok_iff {p : Params} {i j : Instr} :
    rangeCheck p i = .ok j ↔ i = j ∧ ∀ r ∈ regOperands i, regOk p r = true := by
  unfold rangeCheck
  cases found : (regOperands i).find? (fun d => !regOk p d) with
  | none =>
    have inRange : ∀ r ∈ regOperands i, regOk p r = true := by simpa using found
    exact ⟨fun same => ⟨Except.ok.inj same, inRange⟩, fun ⟨same, _⟩ => congrArg _ same⟩
  | some d =>
    have outside : regOk p d = false := by simpa using List.find?_some found
    exact ⟨nofun, fun ⟨_, inRange⟩ =>
      absurd (inRange d (List.mem_of_find?_eq_some found)) (by simp [outside])⟩

theorem rangeCheck_eq_error_iff {p : Params} {i : Instr} {c : FaultCause} :
    rangeCheck p i = .error c ↔
      ∃ d, c = .registerOutOfRange d ∧ (regOperands i).find? (fun r => decide (p.N ≤ r.val)) = some d := by
  rw [← not_regOk, rangeCheck]
  cases (regOperands i).find? (fun d => !regOk p d) with
  | none => simp
  | some d => simp [eq_comm]

theorem decode_of_readsAs {p : Params} {s : Text} {i : Instr} (reads : ReadsAs p s i) :
    decode p s = rangeCheck p i := by
  obtain ⟨kw, v, keyword, shape, integer, rfl⟩ := reads
  rw [rangeCheck, regOperands_assemble]
  cases found : (registerFields kw s).find? (fun d => !regOk p d) <;>
    simp only [decode, keyword, ofText_text, shape, integer, if_true, found]

/-- What the decoder answers, in the order of R75's checks. -/
theorem decode_cases (p : Params) (s : Text) :
    (decode p s = .error (.unknownOpcode (keywordOf s)) ∧ ∀ kw : Keyword, kw.text ≠ keywordOf s) ∨
    (∃ kw : Keyword, kw.text = keywordOf s) ∧
      ((decode p s = .error (.malformedOperand s) ∧ ∀ i, ¬ ReadsAs p s i) ∨
        ∃ i, ReadsAs p s i ∧ decode p s = rangeCheck p i) := by
  cases keyword : Keyword.ofText? (keywordOf s) with
  | none => exact .inl ⟨by simp only [decode, keyword], ofText_eq_none.mp keyword⟩
  | some kw =>
    have text := text_of_ofText keyword
    refine .inr ⟨⟨kw, text⟩, ?_⟩
    by_cases reads : ∃ i, ReadsAs p s i
    · obtain ⟨i, reads⟩ := reads
      exact .inr ⟨i, reads, decode_of_readsAs reads⟩
    · refine .inl ⟨?_, not_exists.mp reads⟩
      cases shape : shapeOk kw s with
      | false => simp [decode, keyword, shape]
      | true =>
        cases integer : integerField p kw s with
        | none => simp [decode, keyword, shape, integer]
        | some v => exact absurd ⟨_, kw, v, text.symm, shape, integer, rfl⟩ reads

/-- An answer other than the faults of code 1 and 2 is the range check's. -/
theorem decode_eq_iff_rangeCheck {p : Params} {s : Text} {answer : Except FaultCause Instr}
    (known : ∀ kw, answer ≠ .error (.unknownOpcode kw))
    (formed : ∀ t, answer ≠ .error (.malformedOperand t)) :
    decode p s = answer ↔ ∃ i, ReadsAs p s i ∧ rangeCheck p i = answer := by
  constructor
  · rintro rfl
    obtain ⟨fault, -⟩ | ⟨-, ⟨fault, -⟩ | ⟨i, reads, checked⟩⟩ := decode_cases p s
    · exact absurd fault (known _)
    · exact absurd fault (formed _)
    · exact ⟨i, reads, checked.symm⟩
  · rintro ⟨i, reads, checked⟩
    exact (decode_of_readsAs reads).trans checked

end Sys2Proof
end

section
/-! SUPPORT. The statements of 30_encoding.md about the decoder, from its cases. -/

namespace Sys2Proof
open Sys2Proof.Machine

/-- Settles O11: the decoder's fields at fixed offsets are those of the line the format tables write. -/
theorem decoderAcceptsExactlyTheFormats : Obligations.DecoderAcceptsExactlyTheFormats := by
  intro p line i
  rw [decode_eq_iff_rangeCheck (by simp) (by simp)]
  simp only [rangeCheck_eq_ok_iff, readsAs_iff, wf_iff (p := p)]
  constructor
  · rintro ⟨_, ⟨spelled, wf⟩, rfl, inRange⟩
    exact ⟨spelled, wf, inRange⟩
  · rintro ⟨spelled, wf, inRange⟩
    exact ⟨i, ⟨spelled, wf⟩, rfl, inRange⟩

/-- Settles O13: only the keyword check answers code 1. -/
theorem unknownKeywordFaults : Obligations.UnknownKeywordFaults := by
  intro p line kw
  change _ ↔ kw = keywordOf line ∧ _
  obtain ⟨fault, unknown⟩ | ⟨⟨k, known⟩, ⟨fault, -⟩ | ⟨i, -, checked⟩⟩ := decode_cases p line
  · rw [fault]
    constructor
    · rintro ⟨⟩
      exact ⟨rfl, unknown⟩
    · rintro ⟨rfl, -⟩
      rfl
  · rw [fault]
    exact ⟨nofun, fun ⟨named, unknown⟩ => absurd (known.trans named.symm) (unknown k)⟩
  · rw [checked, rangeCheck_eq_error_iff]
    exact ⟨nofun, fun ⟨named, unknown⟩ => absurd (known.trans named.symm) (unknown k)⟩

/-- Settles O14: only the range check answers code 3, and it comes last. -/
theorem registerRangeFaults : Obligations.RegisterRangeFaults := by
  intro p line d
  rw [decode_eq_iff_rangeCheck (by simp) (by simp)]
  simp [rangeCheck_eq_error_iff, readsAs_iff, and_assoc]

/-- Settles O15: the checks between the keyword and the register range answer code 2. -/
theorem malformedLineFaults : Obligations.MalformedLineFaults := by
  intro p line bad
  change _ ↔ bad = line ∧ (∃ k : Keyword, k.text = keywordOf line) ∧ _
  have unread : (∀ i, spells line i → i.wf { p with N := 10 } = false) ↔ ∀ i, ¬ ReadsAs p line i := by
    simp [readsAs_iff]
  rw [unread]
  obtain ⟨fault, unknown⟩ | ⟨known, ⟨fault, unspelled⟩ | ⟨i, reads, checked⟩⟩ := decode_cases p line
  · rw [fault]
    exact ⟨nofun, fun ⟨_, ⟨k, known⟩, _⟩ => absurd known (unknown k)⟩
  · rw [fault]
    constructor
    · rintro ⟨⟩
      exact ⟨rfl, known, unspelled⟩
    · rintro ⟨rfl, -⟩
      rfl
  · rw [checked, rangeCheck_eq_error_iff]
    exact ⟨nofun, fun ⟨_, _, unspelled⟩ => absurd reads (unspelled i)⟩

/-- Settles O9: each line is evaluated by the decoder. -/
theorem sampleLinesDecode : Obligations.SampleLinesDecode := by
  unfold Obligations.SampleLinesDecode
  decide

/-- Settles O16: the faults of the keyword check, the shape and integer checks and the range check. -/
theorem decoderIsTotal : Obligations.DecoderIsTotal := by
  intro p line
  cases answer : decode p line with
  | ok i => exact .inl ⟨i, rfl⟩
  | error c =>
    refine .inr ⟨c, rfl, ?_⟩
    obtain ⟨fault, -⟩ | ⟨-, ⟨fault, -⟩ | ⟨i, -, checked⟩⟩ := decode_cases p line
    · cases fault.symm.trans answer
      exact ⟨rfl, .inl rfl⟩
    · cases fault.symm.trans answer
      exact ⟨rfl, .inr (.inl rfl)⟩
    · obtain ⟨d, rfl, -⟩ := rangeCheck_eq_error_iff.mp (checked.symm.trans answer)
      exact ⟨rfl, .inr (.inr rfl)⟩

end Sys2Proof
end

section
/-! SUPPORT. The statements of 40_engine.md: the host's operations on an engine that is not running, when a step
exists and what it is, and the engine under fuel. -/

namespace Sys2Proof.Machine

/-! ## Acting between runs (R85, R90) -/

theorem whenNotRunning_of_running {s : State} (running : s.status = .running)
    (act : Host.Outcome State Fault Refusal) : s.whenNotRunning act = .refused .engineRunning :=
  if_pos running

theorem whenNotRunning_of_not_running {s : State} (notRunning : s.status ≠ .running)
    (act : Host.Outcome State Fault Refusal) : s.whenNotRunning act = act :=
  if_neg notRunning

/-- Settles O8: all three operations ask first whether the engine runs. -/
theorem hostActsOnlyBetweenRuns : Obligations.HostActsOnlyBetweenRuns := fun _ running =>
  ⟨fun _ => whenNotRunning_of_running running _, fun _ _ => whenNotRunning_of_running running _,
    whenNotRunning_of_running running _⟩

/-- Settles O7: neither idle nor halted is running. -/
theorem runSetsOnlyPcStatusCause : Obligations.RunSetsOnlyPcStatusCause := by
  intro s stopped
  have notRunning : s.status ≠ .running := by
    rcases stopped with idle | halted
    · simp [idle]
    · simp [halted]
  exact whenNotRunning_of_not_running notRunning _

/-! ## The pre-pass of LOAD (R87, R88) -/

/-- The label name that line j of a program defines. -/
def labelAt (lines : List Text) (j : Nat) : Option Text :=
  lines[j]?.bind labelNameOf

@[simp] theorem labelAt_nil (j : Nat) : labelAt [] j = none := rfl

@[simp] theorem labelAt_cons_zero (line : Text) (rest : List Text) :
    labelAt (line :: rest) 0 = labelNameOf line := rfl

@[simp] theorem labelAt_cons_succ (line : Text) (rest : List Text) (j : Nat) :
    labelAt (line :: rest) (j + 1) = labelAt rest j := rfl

theorem labelAt_eq_some_iff {lines : List Text} {j : Nat} {name : Text} :
    labelAt lines j = some name ↔ name ≠ [] ∧ lines[j]? = some ("LABEL ".toList ++ name) := by
  simp only [labelAt, Option.bind_eq_some_iff, labelNameOf_eq_some]
  constructor
  · rintro ⟨_, found, nonempty, rfl⟩
    exact ⟨nonempty, found⟩
  · rintro ⟨nonempty, found⟩
    exact ⟨_, found, nonempty, rfl⟩

/-- A line of a non-empty program is its first line or a line of the rest. -/
theorem exists_labelAt_cons {line name : Text} {rest : List Text} {P : Nat → Prop} :
    (∃ j, P j ∧ labelAt (line :: rest) j = some name) ↔
      (P 0 ∧ labelNameOf line = some name) ∨ ∃ j, P (j + 1) ∧ labelAt rest j = some name := by
  rw [← Nat.or_exists_add_one]
  simp

theorem prepass_cons_of_unlabelled {line : Text} (unlabelled : labelNameOf line = none) (i : Nat)
    (labels : LabelTable) (rest : List Text) :
    prepass i labels (line :: rest) = prepass (i + 1) labels rest := by
  simp [prepass, unlabelled]

theorem prepass_cons_of_new {line name : Text} (defines : labelNameOf line = some name) {labels : LabelTable}
    (new : tableGet name labels = none) (i : Nat) (rest : List Text) :
    prepass i labels (line :: rest) = prepass (i + 1) (tableSet name i labels) rest := by
  simp [prepass, defines, new]

theorem prepass_cons_of_known {line name : Text} (defines : labelNameOf line = some name) {labels : LabelTable}
    {p : Nat} (known : tableGet name labels = some p) (i : Nat) (rest : List Text) :
    prepass i labels (line :: rest) = .error name := by
  simp [prepass, defines, known]

/-- The table the pre-pass builds: the entries it began with, and each line's position under its name. -/
theorem tableGet_of_prepass {lines : List Text} {i : Nat} {labels table : LabelTable}
    (built : prepass i labels lines = .ok table) (name : Text) (p : Nat) :
    tableGet name table = some p ↔
      tableGet name labels = some p ∨ ∃ j, p = i + j ∧ labelAt lines j = some name := by
  induction lines generalizing i labels with
  | nil => cases built; simp
  | cons line rest ih =>
    rw [exists_labelAt_cons]
    cases defines : labelNameOf line with
    | none =>
      rw [prepass_cons_of_unlabelled defines] at built
      simp [ih built, Nat.add_assoc, Nat.add_comm 1]
    | some first =>
      cases entry : tableGet first labels with
      | some q => cases (prepass_cons_of_known defines entry i rest).symm.trans built
      | none =>
        rw [prepass_cons_of_new defines entry] at built
        rw [ih built, tableGet_tableSet]
        by_cases same : name = first
        · simp [same, entry, Nat.add_assoc, Nat.add_comm 1, eq_comm]
        · simp [same, Ne.symm same, Nat.add_assoc, Nat.add_comm 1]

/-- The pre-pass stops only at a line whose name has an entry at the start or is an earlier line's. -/
theorem duplicate_of_prepass {lines : List Text} {i : Nat} {labels : LabelTable} {name : Text}
    (stopped : prepass i labels lines = .error name) :
    ∃ j, labelAt lines j = some name ∧
      ((∃ p, tableGet name labels = some p) ∨ ∃ k, k < j ∧ labelAt lines k = some name) := by
  induction lines generalizing i labels with
  | nil => cases stopped
  | cons line rest ih =>
    cases defines : labelNameOf line with
    | none =>
      rw [prepass_cons_of_unlabelled defines] at stopped
      obtain ⟨j, second, earlier⟩ := ih stopped
      exact ⟨j + 1, second, earlier.imp_right fun ⟨k, before, named⟩ => ⟨k + 1, Nat.succ_lt_succ before, named⟩⟩
    | some first =>
      cases entry : tableGet first labels with
      | some q =>
        cases (prepass_cons_of_known defines entry i rest).symm.trans stopped
        exact ⟨0, defines, .inl ⟨q, entry⟩⟩
      | none =>
        rw [prepass_cons_of_new defines entry] at stopped
        obtain ⟨j, second, ⟨p, known⟩ | ⟨k, before, named⟩⟩ := ih stopped
        · by_cases same : name = first
          · exact ⟨j + 1, second, .inr ⟨0, Nat.succ_pos j, same ▸ defines⟩⟩
          · exact ⟨j + 1, second, .inl ⟨p, (tableGet_tableSet_ne same i labels).symm.trans known⟩⟩
        · exact ⟨j + 1, second, .inr ⟨k + 1, Nat.succ_lt_succ before, named⟩⟩

/-- LOAD's table gives a name the position of each line that defines it. -/
theorem tableGet_of_prepass_empty {lines : List Text} {table : LabelTable} (built : prepass 0 [] lines = .ok table)
    (name : Text) (p : Nat) : tableGet name table = some p ↔ labelAt lines p = some name := by
  simp [tableGet_of_prepass built, tableGet]

/-! ## LOAD and REGISTER_LABEL (R87 to R89) -/

theorem hostLoad_of_ok {s : State} {lines : List Text} {table : LabelTable} (notRunning : s.status ≠ .running)
    (built : prepass 0 [] lines = .ok table) :
    s.hostLoad lines = .next { s with prog := lines, labels := table } := by
  simp [State.hostLoad, whenNotRunning_of_not_running notRunning, built]

theorem hostLoad_of_error {s : State} {lines : List Text} {name : Text} (notRunning : s.status ≠ .running)
    (stopped : prepass 0 [] lines = .error name) : s.hostLoad lines = .refused (.duplicateLabel name) := by
  simp [State.hostLoad, whenNotRunning_of_not_running notRunning, stopped]

/-- Settles O4: the table of an accepted LOAD is the one its pre-pass builds from the empty table. -/
theorem loadReplacesProgramAndLabels : Obligations.LoadReplacesProgramAndLabels := by
  intro s t lines accepted
  obtain ⟨-, table, built, rfl⟩ := hostLoad_next accepted
  exact ⟨rfl, fun name i => (tableGet_of_prepass_empty built name i).trans labelAt_eq_some_iff⟩

/-- Settles O5: the pre-pass stops only at a duplicate, and a table it built could not give one name two
positions. -/
theorem loadRefusesDuplicateLabels : Obligations.LoadRefusesDuplicateLabels := by
  intro s lines notRunning
  cases answer : prepass 0 [] lines with
  | ok table =>
    rw [hostLoad_of_ok notRunning answer]
    refine ⟨nofun, fun i j name before nonempty first second => ?_, fun _ => ⟨_, rfl⟩⟩
    have atFirst := (tableGet_of_prepass_empty answer name i).mpr (labelAt_eq_some_iff.mpr ⟨nonempty, first⟩)
    have atSecond := (tableGet_of_prepass_empty answer name j).mpr (labelAt_eq_some_iff.mpr ⟨nonempty, second⟩)
    exact absurd (Option.some.inj (atFirst.symm.trans atSecond)) before.ne
  | error found =>
    rw [hostLoad_of_error notRunning answer]
    refine ⟨?_, fun _ _ _ _ _ _ _ => ⟨found, rfl⟩, fun accepted => absurd rfl (accepted found)⟩
    rintro _ ⟨⟩
    obtain ⟨j, second, ⟨p, known⟩ | ⟨i, before, first⟩⟩ := duplicate_of_prepass answer
    · cases known
    · obtain ⟨nonempty, lineFirst⟩ := labelAt_eq_some_iff.mp first
      obtain ⟨-, lineSecond⟩ := labelAt_eq_some_iff.mp second
      exact ⟨i, j, before, nonempty, lineFirst, lineSecond⟩

/-- The labels after a LOAD depend on its lines alone. -/
theorem hostLoad_labels_eq {s t u v : State} {lines : List Text} (hu : t.hostLoad lines = .next u)
    (hv : s.hostLoad lines = .next v) : u.labels = v.labels := by
  obtain ⟨-, table, built, rfl⟩ := hostLoad_next hu
  obtain ⟨-, table', built', rfl⟩ := hostLoad_next hv
  exact Except.ok.inj (built.symm.trans built')

theorem hostRegister_of_valid {s : State} {name : Text} {p : Int} (notRunning : s.status ≠ .running)
    (valid : name ≠ [] ∧ 0 ≤ p ∧ p ≤ (s.prog.length : Int)) :
    s.hostRegister name p = .next { s with labels := tableSet name p.toNat s.labels } :=
  (whenNotRunning_of_not_running notRunning _).trans (if_pos valid)

theorem hostRegister_of_not_valid {s : State} {name : Text} {p : Int} (notRunning : s.status ≠ .running)
    (invalid : ¬(name ≠ [] ∧ 0 ≤ p ∧ p ≤ (s.prog.length : Int))) :
    s.hostRegister name p = .refused (.badRegistration name p) :=
  (whenNotRunning_of_not_running notRunning _).trans (if_neg invalid)

/-- Settles O6: a registration sets one entry of the table, and LOAD does not read the table it replaces. -/
theorem registerSetsOneLabel : Obligations.RegisterSetsOneLabel := by
  intro s name p notRunning
  constructor
  · intro nonempty lower upper
    exact ⟨_, hostRegister_of_valid notRunning ⟨nonempty, lower, upper⟩, rfl, tableGet_tableSet_self _ _ _,
      fun _ ne => tableGet_tableSet_ne ne _ _, fun _ _ _ => hostLoad_labels_eq⟩
  · intro bad
    refine hostRegister_of_not_valid notRunning ?_
    rintro ⟨nonempty, lower, upper⟩
    rcases bad with empty | below | above
    · exact nonempty empty
    · exact absurd lower (not_le.mpr below)
    · exact absurd upper (not_le.mpr above)

/-! ## Every execution answers a next state (R161, R162) -/

/-- The outcome is a next state, and neither a stop nor a refusal of the model. -/
abbrev HasNext (o : Host.Outcome State Fault Refusal) : Prop :=
  ∃ t, o = .next t

section Total
variable {s : State}

theorem withReg_hasNext {r : Reg} {use : Word → Host.Outcome State Fault Refusal} (total : ∀ v, HasNext (use v)) :
    HasNext (s.withReg r use) := by
  obtain ⟨v, -, used⟩ | ⟨-, faulted⟩ := withReg_cases (s := s) (r := r) (use := use) rfl
  · exact used ▸ total v
  · exact ⟨_, faulted⟩

theorem withRegs_hasNext {r1 r2 : Reg} {use : Word → Word → Host.Outcome State Fault Refusal}
    (total : ∀ a b, HasNext (use a b)) : HasNext (s.withRegs r1 r2 use) :=
  withReg_hasNext fun a => withReg_hasNext (total a)

theorem binary_hasNext {op : Params → Word → Word → Word} {r1 r2 : Reg} : HasNext (s.binary op r1 r2) :=
  withRegs_hasNext fun _ _ => ⟨_, rfl⟩

theorem withTarget_hasNext {name : Text} {use : Nat → Host.Outcome State Fault Refusal}
    (total : ∀ target, HasNext (use target)) : HasNext (s.withTarget name use) := by
  obtain ⟨target, -, used⟩ | ⟨-, faulted⟩ := withTarget_cases (s := s) (name := name) (use := use) rfl
  · exact used ▸ total target
  · exact ⟨_, faulted⟩

theorem withCell_hasNext {addr : Int} {use : Nat → Host.Outcome State Fault Refusal}
    (total : ∀ a, HasNext (use a)) : HasNext (s.withCell addr use) := by
  obtain ⟨a, -, -, used⟩ | ⟨-, faulted⟩ := withCell_cases (s := s) (addr := addr) (use := use) rfl
  · exact used ▸ total a
  · exact ⟨_, faulted⟩

theorem ite_hasNext {c : Prop} [Decidable c] {o o' : Host.Outcome State Fault Refusal} (ho : HasNext o)
    (ho' : HasNext o') : HasNext (if c then o else o') := by
  split
  · exact ho
  · exact ho'

end Total

theorem exec_hasNext (i : Instr) (s : State) : HasNext (exec i s) := by
  cases i with
  | mov rd imm => exact withReg_hasNext fun _ => ⟨_, rfl⟩
  | add | sub | mul | exp | gt | lt | eq => exact binary_hasNext
  | div | mod => exact withRegs_hasNext fun _ _ => ite_hasNext ⟨_, rfl⟩ ⟨_, rfl⟩
  | print r => exact withReg_hasNext fun _ => ⟨_, rfl⟩
  | jmp name => exact withTarget_hasNext fun _ => ⟨_, rfl⟩
  | jeq r1 r2 name =>
    exact withRegs_hasNext fun _ _ => ite_hasNext (withTarget_hasNext fun _ => ⟨_, rfl⟩) ⟨_, rfl⟩
  | call name => exact withTarget_hasNext fun _ => ite_hasNext ⟨_, rfl⟩ ⟨_, rfl⟩
  | ret =>
    simp only [exec, execRet]
    cases s.callStack with
    | nil => exact ⟨_, rfl⟩
    | cons target rest => exact ⟨_, rfl⟩
  | alloc size => exact ite_hasNext ⟨_, rfl⟩ ⟨_, rfl⟩
  | store r addr | load r addr => exact withReg_hasNext fun _ => withCell_hasNext fun _ => ⟨_, rfl⟩
  | label name => exact ⟨_, rfl⟩

/-! ## The step of a running engine (R91 to R95, R104) -/

/-- Settles O18: the fetched line decodes, so the step is the dispatch of its instruction. -/
theorem stepRunsDecodedInstruction : Obligations.StepRunsDecodedInstruction := by
  intro s line i running fetched decoded
  simp only [step, running, State.fetch, fetched, decoded, State.advance, State.setPc]

/-- Settles O19: past the program the fetch finds no line. -/
theorem stepPastProgramHaltsNormally : Obligations.StepPastProgramHaltsNormally := by
  intro s running past
  simp only [step, running, State.fetch, List.getElem?_eq_none past, State.normalHalt]

theorem step_of_decode_error {s : State} {line : Text} {c : FaultCause} (running : s.status = .running)
    (fetched : s.prog[s.pc]? = some line) (illegal : decode s.params line = .error c) :
    step s = .next (s.advance.faultHalt c) := by
  simp only [step, running, State.fetch, fetched, illegal, State.raise]

/-- The fault halt after the fetch of a line, in the fields of the state before the fetch (R92, R165). -/
theorem advance_faultHalt {s : State} {line : Text} (fetched : s.prog[s.pc]? = some line) (c : FaultCause) :
    s.advance.faultHalt c = { s with
      pc := s.pc + 1
      trace := s.trace ++ [.err { cause := c, position := s.pc, line := line }]
      status := .halted
      haltCause := .fault { cause := c, position := s.pc, line := line } } :=
  (raise_eq_next.mp (executeFaultHaltsPrecisely s.advance s.pc line c rfl fetched)).symm

/-- Settles O20: the step on an illegal line is the fault halt after its fetch. -/
theorem stepOnIllegalLineFaultHalts : Obligations.StepOnIllegalLineFaultHalts := by
  intro s line c running fetched illegal
  rw [step_of_decode_error running fetched illegal, advance_faultHalt fetched]

/-- Settles O21: a running engine halts past the program or at an illegal line, or executes, which always
answers a next state. -/
theorem stepExistsExactlyWhileRunning : Obligations.StepExistsExactlyWhileRunning := by
  intro s
  refine ⟨fun ⟨t, stepped⟩ => (step_cases stepped).1, fun running => ?_⟩
  rcases le_or_gt s.prog.length s.pc with past | inside
  · exact ⟨_, stepPastProgramHaltsNormally s running past⟩
  · have fetched : s.prog[s.pc]? = some s.prog[s.pc] := List.getElem?_eq_getElem inside
    cases decoded : decode s.params s.prog[s.pc] with
    | error c => exact ⟨_, step_of_decode_error running fetched decoded⟩
    | ok i => exact stepRunsDecodedInstruction s _ i running fetched decoded ▸ exec_hasNext i _

/-- Settles O22: a decode fault and an execute fault take the same halt after the fetch, and an execution without
a fault leaves status and halt cause alone. -/
theorem runningEndsOnlyInTheTwoHalts : Obligations.RunningEndsOnlyInTheTwoHalts := by
  intro s t stepped
  obtain ⟨running, ⟨past, rfl⟩ | ⟨line, fetched, ⟨c, -, rfl⟩ | ⟨i, -, executed⟩⟩⟩ := step_cases stepped
  · exact .inr (.inl ⟨past, rfl⟩)
  · exact .inr (.inr ⟨line, c, fetched, advance_faultHalt fetched c⟩)
  · obtain ⟨-, status, cause⟩ | ⟨c, rfl⟩ := exec_continues_or_faults executed
    · obtain ⟨inside, -⟩ := List.getElem?_eq_some_iff.mp fetched
      exact .inl ⟨status.trans running, cause, inside⟩
    · exact .inr (.inr ⟨line, c, fetched, advance_faultHalt fetched c⟩)

/-! ## The engine under fuel (R90, R97, R99) -/

theorem engine_succ_of_step {s t : State} (stepped : step s = .next t) (fuel : Nat) :
    engine (fuel + 1) s = engine fuel t := by
  simp only [engine, stepped]

theorem engine_of_not_running {s : State} (notRunning : s.status ≠ .running) (fuel : Nat) : engine fuel s = s := by
  cases fuel with
  | zero => rfl
  | succ fuel =>
    cases answer : step s with
    | next t => exact absurd (step_cases answer).1 notRunning
    | fault r | refused r => simp only [engine, answer]

/-- Fuel can be spent in two parts. -/
theorem engine_add (n m : Nat) (s : State) : engine (n + m) s = engine m (engine n s) := by
  induction n generalizing s with
  | zero => rw [Nat.zero_add, engine]
  | succ n ih =>
    by_cases running : s.status = .running
    · obtain ⟨t, stepped⟩ := (stepExistsExactlyWhileRunning s).mpr running
      rw [Nat.add_right_comm, engine_succ_of_step stepped, engine_succ_of_step stepped, ih]
    · rw [engine_of_not_running running, engine_of_not_running running, engine_of_not_running running]

theorem engine_succ_of_step_last {n : Nat} {s t : State} (stepped : step (engine n s) = .next t) :
    engine (n + 1) s = t := by
  rw [engine_add, engine_succ_of_step stepped, engine]

theorem reaches_engine (n : Nat) (s : State) : Reaches s (engine n s) := by
  induction n with
  | zero => exact .refl s
  | succ n ih =>
    by_cases running : (engine n s).status = .running
    · obtain ⟨t, stepped⟩ := (stepExistsExactlyWhileRunning _).mpr running
      exact engine_succ_of_step_last stepped ▸ ih.tail stepped
    · rwa [engine_add, engine_of_not_running running]

/-- Settles O60: the last unit of fuel takes the last step, and an engine that no longer runs keeps its state. -/
theorem engineStepsUntilHalted : Obligations.EngineStepsUntilHalted := fun n m s =>
  ⟨reaches_engine n s, fun halted => (engine_add n m s).trans (engine_of_not_running halted m),
    fun _ stepped => engine_succ_of_step_last stepped⟩

end Sys2Proof.Machine
end

section
/-! SUPPORT. The statements of 41_move_arith.md: the line of an instruction spells it, wrapped arithmetic, and what
each of the seven instructions writes. -/

namespace Sys2Proof
open Sys2Proof.Machine

/-! ## Lines (R66, R67, R83) -/

/-- The encoder writes a line of the instruction's own format table (R83). -/
theorem spells_encode (i : Instr) : spells (encode i) i := by
  cases i with
  | mov rd imm => exact ⟨dec imm, rfl, parseInteger_dec imm⟩
  | alloc size => exact ⟨dec size, rfl, parseInteger_dec size⟩
  | store r addr | load r addr => exact ⟨dec addr, rfl, parseInteger_dec addr⟩
  | _ => rfl

@[simp] theorem keyword_text_inj {k k' : Keyword} : k.text = k'.text ↔ k = k' :=
  ⟨fun same => Option.some.inj (by rw [← ofText_text k, same, ofText_text]), congrArg _⟩

@[simp] theorem digitChar_reg_inj {r q : Reg} : Nat.digitChar r.val = Nat.digitChar q.val ↔ r = q :=
  ⟨fun same => by rw [← digitValue_digitChar r, same, digitValue_digitChar], fun same => by rw [same]⟩

theorem keywordOf_of_spells {s : Text} {i : Instr} (spelled : spells s i) : keywordOf s = i.keyword.text := by
  obtain ⟨t, rfl, -⟩ := spells_iff.mp spelled
  exact keywordOf_line _ _ t

/-- Only a MOV to the register of its digit is spelled by a line of MOV's format (R66). -/
theorem spells_movLine_iff {rd : Reg} {t : Text} {i : Instr} :
    spells (Keyword.mov.line [rd] t) i ↔ ∃ v, parseInteger t = some v ∧ i = .mov rd v := by
  constructor
  · intro spelled
    have keyword : Keyword.mov = i.keyword :=
      keyword_text_inj.mp ((keywordOf_line .mov [rd] t).symm.trans (keywordOf_of_spells spelled))
    cases i with
    | mov rd' v =>
      obtain ⟨t', line, parsed⟩ := spelled
      obtain ⟨rfl, rfl⟩ : rd = rd' ∧ t = t' := by
        simpa [Keyword.line, Keyword.text, Keyword.format, Format.hasText, Format.integerOffset, encReg,
          encName] using line
      exact ⟨v, parsed, rfl⟩
    | _ => cases keyword
  · rintro ⟨v, parsed, rfl⟩
    exact ⟨t, rfl, parsed⟩

/-! ## Wrapped arithmetic (R13) -/

theorem wrap_wrap_mul (W : Nat) (u v : Int) : wrap W (wrap W u * v) = wrap W (u * v) :=
  wrap_eq_wrap_of_dvd (sub_mul (wrap W u) u v ▸ (dvd_wrap_sub W u).mul_right v)

theorem wrap_mul_wrap_add (W : Nat) (u v w : Int) : wrap W (u * wrap W v + w) = wrap W (u * v + w) := by
  apply wrap_eq_wrap_of_dvd
  rw [add_sub_add_right_eq_sub, ← mul_sub]
  exact (dvd_wrap_sub W v).mul_left u

/-- A remainder of the truncated quotient other than 0 has the sign of the dividend (R110). -/
theorem tmod_pos_iff {a b : Int} (nonzero : Int.tmod a b ≠ 0) : 0 < Int.tmod a b ↔ 0 < a := by
  rcases le_or_gt a 0 with nonpos | pos
  · have := Int.neg_tmod a b ▸ Int.tmod_nonneg b (neg_nonneg.mpr nonpos)
    omega
  · have := Int.tmod_nonneg b pos.le
    omega

namespace Machine

/-! ## The values of MOD and EXP (R110, R111) -/

theorem modWord_eq_tmod (p : Params) (a b : Word) : modWord p a b = Int.tmod a b :=
  (Int.tmod_def a b).symm

section Power
variable {p : Params} {b e : Int}

theorem expWord_of_nonneg (he : 0 ≤ e) : expWord p b e = wrap p.W (b ^ e.toNat) :=
  if_pos he

theorem expWord_one_of_neg (he : e < 0) : expWord p 1 e = 1 := by
  simp [expWord, he.not_ge]

theorem expWord_neg_one_of_neg (he : e < 0) : expWord p (-1) e = if e % 2 = 0 then 1 else -1 := by
  simp [expWord, he.not_ge]

theorem expWord_zero_of_neg (he : e < 0) : expWord p 0 e = p.expZeroNeg := by
  simp [expWord, he.not_ge]

/-- The reciprocal of an integer of magnitude 2 or more is truncated to 0. -/
theorem expWord_of_neg_of_two_le (he : e < 0) (hb : 2 ≤ b ∨ b ≤ -2) : expWord p b e = 0 := by
  have ne_one : b ≠ 1 := by rintro rfl; omega
  have ne_neg_one : b ≠ -1 := by rintro rfl; omega
  have ne_zero : b ≠ 0 := by rintro rfl; omega
  simp [expWord, he.not_ge, ne_one, ne_neg_one, ne_zero]

end Power

/-- Settles O34, by induction on the exponent: a factor may be wrapped before the multiplication. -/
theorem expEqualsRepeatedMul : Obligations.ExpEqualsRepeatedMul := by
  intro p b n hW
  rw [expWord_of_nonneg (Int.natCast_nonneg n), Int.toNat_natCast]
  induction n with
  | zero =>
    have word : isWord p.W 1 = true := isWord_of_abs_le_one hW (by decide) (by decide)
    rw [pow_zero, wrap_eq_self (one_le_two.trans hW) word, Function.iterate_zero_apply]
  | succ n ih =>
    rw [Function.iterate_succ_apply', ← ih, mulWord, wrap_wrap_mul, pow_succ]

/-! ## What each instruction writes (R105 to R111) -/

theorem exec_mov_of_hasReg {s : State} {rd : Reg} (hr : s.hasReg rd) (imm : Word) :
    exec (.mov rd imm) s = .next (s.writeReg rd imm) := by
  obtain ⟨old, hold⟩ := readReg_of_hasReg hr
  exact withReg_some hold _

/-- Settles O25: a line of MOV's format spells a MOV exactly when its text field is an integer, so the laws of
the decoder's three answers apply. -/
theorem movLoadsImmediate : Obligations.MovLoadsImmediate := by
  refine ⟨fun rd imm s hr => exec_mov_of_hasReg hr imm, fun p rd t => ⟨?_, ?_, ?_⟩⟩
  · intro v parsed word inRange
    refine (decoderAcceptsExactlyTheFormats p _ _).mpr ⟨⟨t, rfl, parsed⟩, ?_⟩
    simp [Instr.wf, regOk, inRange, word]
  · intro noWord
    refine (malformedLineFaults p _ _).mpr ⟨rfl, ⟨.mov, (keywordOf_line .mov [rd] t).symm⟩, fun i spelled => ?_⟩
    obtain ⟨v, parsed, rfl⟩ := spells_movLine_iff.mp spelled
    simp [Instr.wf, noWord v parsed]
  · intro v parsed word outOfRange
    refine (registerRangeFaults p _ _).mpr ⟨.mov rd v, ⟨t, rfl, parsed⟩, ?_, ?_⟩
    · simp [Instr.wf, regOk_ten, word]
    · simp [regOperands, outOfRange]

section Binary
variable {s : State} {r1 r2 : Reg} {a b : Word} (ha : s.readReg r1 = some a) (hb : s.readReg r2 = some b)
include ha hb

theorem exec_div_of_ne_zero (nonzero : b ≠ 0) :
    exec (.div r1 r2) s = .next (s.writeReg r1 (divWord s.params a b)) :=
  (withRegs_some ha hb _).trans (if_neg nonzero)

theorem exec_div_of_zero (zero : b = 0) : exec (.div r1 r2) s = .next (s.faultHalt (.divideByZero r2)) :=
  (withRegs_some ha hb _).trans (if_pos zero)

theorem exec_mod_of_ne_zero (nonzero : b ≠ 0) :
    exec (.mod r1 r2) s = .next (s.writeReg r1 (modWord s.params a b)) :=
  (withRegs_some ha hb _).trans (if_neg nonzero)

theorem exec_mod_of_zero (zero : b = 0) : exec (.mod r1 r2) s = .next (s.faultHalt (.moduloByZero r2)) :=
  (withRegs_some ha hb _).trans (if_pos zero)

theorem exec_exp_of_expWord {v : Word} (power : expWord s.params a b = v) :
    exec (.exp r1 r2) s = .next (s.writeReg r1 v) :=
  power ▸ binary_some ha hb expWord

end Binary

/-- Settles O26. -/
theorem addWritesWrappedSum : Obligations.AddWritesWrappedSum := fun r1 r2 _ _ _ ha hb =>
  ⟨binary_some ha hb addWord, spells_encode (.add r1 r2)⟩

/-- Settles O27. -/
theorem subWritesWrappedDifference : Obligations.SubWritesWrappedDifference := fun r1 r2 _ _ _ ha hb =>
  ⟨binary_some ha hb subWord, spells_encode (.sub r1 r2)⟩

/-- Settles O28. -/
theorem mulWritesWrappedProduct : Obligations.MulWritesWrappedProduct := fun r1 r2 _ _ _ ha hb =>
  ⟨binary_some ha hb mulWord, spells_encode (.mul r1 r2)⟩

/-- Settles O29, by the test of the divisor. -/
theorem divWritesTruncatedQuotient : Obligations.DivWritesTruncatedQuotient := fun r1 r2 _ _ _ ha hb =>
  ⟨exec_div_of_ne_zero ha hb, exec_div_of_zero ha hb, spells_encode (.div r1 r2)⟩

/-- Settles O30, by the test of the divisor. -/
theorem modWritesTruncatedRemainder : Obligations.ModWritesTruncatedRemainder := fun r1 r2 _ _ _ ha hb =>
  ⟨exec_mod_of_ne_zero ha hb, exec_mod_of_zero ha hb, spells_encode (.mod r1 r2)⟩

/-- Settles O31, one case of the power at a time. -/
theorem expWritesPower : Obligations.ExpWritesPower := by
  intro r1 r2 s b e hb he
  refine ⟨fun nonneg => ?_, ?_, ?_, ?_, fun neg large => ?_, ?_, spells_encode (.exp r1 r2)⟩
  · exact exec_exp_of_expWord hb he (expWord_of_nonneg nonneg)
  · rintro neg rfl
    exact exec_exp_of_expWord hb he (expWord_one_of_neg neg)
  · rintro neg rfl even
    exact exec_exp_of_expWord hb he ((expWord_neg_one_of_neg neg).trans (if_pos even))
  · rintro neg rfl odd
    exact exec_exp_of_expWord hb he ((expWord_neg_one_of_neg neg).trans (if_neg (by simp [odd])))
  · exact exec_exp_of_expWord hb he (expWord_of_neg_of_two_le neg large)
  · rintro neg rfl
    exact exec_exp_of_expWord hb he (expWord_zero_of_neg neg)

/-- Settles O33: the wrap of the quotient is lost under the outer wrap, and the remainder is the library's
truncated one. -/
theorem quotientAndRemainderRebuildDividend : Obligations.QuotientAndRemainderRebuildDividend := by
  intro r1 r2 s t u a b q m ha hb word nonzero hW divided reduced hq hm
  have hr := hasReg_of_readReg ha
  have quotient : wrap s.params.W (Int.tdiv a b) = q := by
    cases (exec_div_of_ne_zero ha hb nonzero).symm.trans divided
    exact Option.some.inj ((readReg_writeReg_self hr _).symm.trans hq)
  have remainder : Int.tmod a b = m := by
    cases (exec_mod_of_ne_zero ha hb nonzero).symm.trans reduced
    rw [← modWord_eq_tmod s.params]
    exact Option.some.inj ((readReg_writeReg_self hr _).symm.trans hm)
  subst quotient remainder
  refine ⟨?_, ?_, tmod_pos_iff⟩
  · rw [wrap_mul_wrap_add, Int.mul_tdiv_add_tmod, wrap_eq_self hW word]
  · rw [Int.natAbs_tmod]
    exact Nat.mod_lt _ (Int.natAbs_pos.mpr nonzero)

end Machine
end Sys2Proof
end


section
/-! SUPPORT. The statements of 42_compare_output.md: the first digit of a decimal text, the word a comparison
writes, and the line of PRINT. -/

namespace Sys2Proof
open Sys2Proof.Machine

/-! ## Decimal text (R125) -/

/-- Decimal digits have no leading zero: the first digit is that of the quotient by 10, down to one digit. -/
theorem toDigits_eq_zero_cons {n : Nat} {ds : Text} (digits : Nat.toDigits 10 n = '0' :: ds) :
    n = 0 ∧ ds = [] := by
  induction n using Nat.strong_induction_on generalizing ds with
  | _ n ih =>
    rcases lt_or_ge n 10 with small | large
    · rw [Nat.toDigits_of_lt_base small] at digits
      simpa [eq_comm] using digits
    · rw [Nat.toDigits_of_base_le (by decide) large] at digits
      rcases List.append_eq_cons_iff.mp digits with ⟨empty, -⟩ | ⟨ds', quotient, -⟩
      · exact absurd empty Nat.toDigits_ne_nil
      · have : n / 10 = 0 := (ih (n / 10) (by omega) quotient).1
        omega

theorem exists_toDigits_eq_cons (n : Nat) : ∃ c ds, Nat.toDigits 10 n = c :: ds ∧ c.isDigit = true ∧
    (c = '0' → n = 0 ∧ ds = []) := by
  obtain ⟨c, ds, digits⟩ := List.exists_cons_of_ne_nil (Nat.toDigits_ne_nil (n := n) (b := 10))
  refine ⟨c, ds, digits, isDigits_cons (digits ▸ isDigits_toDigits n), ?_⟩
  rintro rfl
  exact toDigits_eq_zero_cons digits

/-- Settles O17, by the sign of the value. -/
theorem decimalTextIsCanonical : Obligations.DecimalTextIsCanonical := by
  refine fun v => ⟨parseInteger_dec v, ?_⟩
  cases v with
  | ofNat n =>
    obtain ⟨c, ds, digits, digit, leadingZero⟩ := exists_toDigits_eq_cons n
    have text : dec n = c :: ds := digits
    have unsigned : c ≠ '-' := by
      rintro rfl
      exact absurd digit (by decide)
    refine ⟨by simp [text, unsigned], c, ds, .inl text, digit, fun zero => ?_⟩
    obtain ⟨rfl, rfl⟩ := leadingZero zero
    exact ⟨rfl, rfl⟩
  | negSucc n =>
    obtain ⟨c, ds, digits, digit, leadingZero⟩ := exists_toDigits_eq_cons (n + 1)
    have text : dec (.negSucc n) = '-' :: c :: ds := congrArg _ digits
    refine ⟨by simp [text, Int.negSucc_lt_zero], c, ds, .inr text, digit, fun zero => ?_⟩
    exact absurd (leadingZero zero).1 n.succ_ne_zero

namespace Machine

/-! ## GT, LT and EQ (R120 to R122) -/

theorem truthWord_decide (c : Prop) [Decidable c] : truthWord (decide c) = if c then 1 else 0 := by
  simp [truthWord]

/-- A two-register operation whose word is the truth of `c` writes 1 or 0 by `c` (R37). -/
theorem binary_of_truthWord {s : State} {r1 r2 : Reg} {a b : Word} (ha : s.readReg r1 = some a)
    (hb : s.readReg r2 = some b) (op : Params → Word → Word → Word) {c : Prop} [Decidable c]
    (truth : op s.params a b = truthWord (decide c)) :
    s.binary op r1 r2 = .next (s.writeReg r1 (if c then 1 else 0)) := by
  rw [binary_some ha hb, truth, truthWord_decide]

/-- Settles O35: each of the three writes the word of its comparison, and its encoder line spells it. -/
theorem comparisonsWriteOneOrZero : Obligations.ComparisonsWriteOneOrZero := fun r1 r2 _ _ _ ha hb =>
  ⟨binary_of_truthWord ha hb gtWord rfl, binary_of_truthWord ha hb ltWord rfl,
    binary_of_truthWord ha hb eqWord rfl,
    spells_encode (.gt r1 r2), spells_encode (.lt r1 r2), spells_encode (.eq r1 r2)⟩

/-! ## PRINT (R124, R125) -/

theorem exec_print_of_readReg {s : State} {r : Reg} {v : Word} (hv : s.readReg r = some v) :
    exec (.print r) s = .next (s.emitOut (outputLine r v)) :=
  withReg_some hv _

/-- Settles O36: PRINT emits its output line, whose index is one digit. -/
theorem printAppendsRegisterLine : Obligations.PrintAppendsRegisterLine := by
  intro r s v hv
  refine ⟨⟨s.emitOut (outputLine r v), exec_print_of_readReg hv, rfl, emitOut_err s _, ?_⟩,
    spells_encode (.print r)⟩
  rw [emitOut_out, outputLine_eq]

end Machine
end Sys2Proof
end

section
/-! SUPPORT. The statements of 43_control.md: LABEL, the transfers to a label, the pairing of CALL and RET,
and the range of pc and the saved return addresses. -/

namespace Sys2Proof.Machine

/-! ## LABEL (R131) -/

theorem decode_label_of_name {name : Text} (nonempty : name ≠ []) (p : Params) :
    decode p ("LABEL ".toList ++ name) = .ok (.label name) :=
  (decoderAcceptsExactlyTheFormats p _ _).mpr ⟨rfl, by simp [Instr.wf, nameOk, nonempty]⟩

/-- The shape check, which reads no parameter, wants a seventh character (R74). -/
theorem decode_label_of_no_name (p : Params) :
    decode p "LABEL ".toList = .error (.malformedOperand "LABEL ".toList) := by
  have keyword : keywordOf "LABEL ".toList = Keyword.label.text := by decide
  have short : shapeOk .label "LABEL ".toList = false := by decide
  simp only [decode, keyword, ofText_text, short, Bool.false_eq_true, if_false]

/-- Settles O37: the step executes the decoded LABEL, and LOAD's table holds non-empty names only. -/
theorem labelLineOnlyAdvancesPc : Obligations.LabelLineOnlyAdvancesPc := by
  refine ⟨fun _ _ => rfl, fun name s running nonempty fetched => ?_, decode_label_of_no_name,
    fun s t lines loaded => ?_⟩
  · exact stepRunsDecodedInstruction s _ _ running fetched (decode_label_of_name nonempty s.params)
  · obtain ⟨-, entries⟩ := loadReplacesProgramAndLabels s t lines loaded
    exact Option.eq_none_iff_forall_ne_some.mpr fun i entry => ((entries [] i).mp entry).1 rfl

/-! ## JMP and JEQ (R132, R133) -/

/-- Settles O38, by the entry of the label. -/
theorem jmpGoesToLabel : Obligations.JmpGoesToLabel := fun name _ =>
  ⟨fun _ entry => withTarget_some entry _, fun noEntry => withTarget_none noEntry _, spells_encode (.jmp name)⟩

section Branch
variable {s : State} {r1 r2 : Reg} {a b : Word} (ha : s.readReg r1 = some a) (hb : s.readReg r2 = some b)
  (name : Text)
include ha hb

/-- A taken JEQ is the JMP to its label. -/
theorem exec_jeq_of_eq (equal : a = b) : exec (.jeq r1 r2 name) s = exec (.jmp name) s :=
  (withRegs_some ha hb _).trans (if_pos equal)

theorem exec_jeq_of_ne (different : a ≠ b) : exec (.jeq r1 r2 name) s = .next s :=
  (withRegs_some ha hb _).trans (if_neg different)

end Branch

/-- Settles O39: on equal registers by the law of JMP. -/
theorem jeqGoesToLabelWhenEqual : Obligations.JeqGoesToLabelWhenEqual := by
  intro r1 r2 name s a b ha hb
  obtain ⟨jumps, faults, -⟩ := jmpGoesToLabel name s
  refine ⟨fun t equal entry => ?_, fun equal noEntry => ?_, exec_jeq_of_ne ha hb name,
    spells_encode (.jeq r1 r2 name)⟩
  · exact (exec_jeq_of_eq ha hb name equal).trans (jumps t entry)
  · exact (exec_jeq_of_eq ha hb name equal).trans (faults noEntry)

/-! ## CALL and RET (R134, R135, R138) -/

/-- Settles O40: the label's entry first, then the depth test. -/
theorem callPushesReturnAddress : Obligations.CallPushesReturnAddress := by
  intro name s
  refine ⟨fun noEntry => withTarget_none noEntry _, fun t D entry bound atBound => ?_, fun t entry below => ?_,
    spells_encode (.call name)⟩
  · have full : s.callStackFull = true := callStackFull_eq_true.mpr ⟨D, bound, atBound⟩
    exact (withTarget_some entry _).trans (if_pos full)
  · have notFull : ¬ s.callStackFull = true := fun full => by
      obtain ⟨D, bound, atBound⟩ := callStackFull_eq_true.mp full
      exact below D bound atBound
    exact (withTarget_some entry _).trans (if_neg notFull)

/-- Settles O41, by the shape of the call stack. -/
theorem retPopsReturnAddress : Obligations.RetPopsReturnAddress := by
  intro s
  refine ⟨fun empty => ?_, fun t rest top => ?_, rfl⟩
  · simp only [exec, execRet, empty, State.raise]
  · simp only [exec, execRet, top]

/-- A CALL takes a fault halt or pushes the position after it. -/
theorem exec_call_cases {name : Text} {s t : State} (called : exec (.call name) s = .next t) :
    (∃ c, t = s.faultHalt c) ∨ t.callStack = s.pc :: s.callStack := by
  rcases withTarget_cases called with ⟨target, -, used⟩ | ⟨-, faulted⟩
  · split at used <;> cases used
    · exact .inl ⟨_, rfl⟩
    · exact .inr rfl
  · cases faulted
    exact .inl ⟨_, rfl⟩

/-- Settles O42: a fault halt would have appended to ERR, so the CALL pushed the address that the RET pops. -/
theorem retReturnsAfterItsCall : Obligations.RetReturnsAfterItsCall := by
  intro name s t u called noFault sameStack
  obtain ⟨-, pops, -⟩ := retPopsReturnAddress u
  rcases exec_call_cases called with ⟨c, rfl⟩ | pushed
  · exact absurd noFault (by simp [faultHalt_err])
  · exact pops s.pc s.callStack (sameStack.trans pushed)

/-! ## The range of pc and the saved return addresses (R136) -/

theorem lookup_le_of_labelsOk {s : State} {name : Text} {target : Nat} (labels : s.labelsOk)
    (entry : s.lookup name = some target) : target ≤ s.prog.length := by
  obtain ⟨-, entries⟩ := labels
  exact (entries _ (mem_of_tableGet entry)).2

theorem exec_keeps_controlOk {i : Instr} {s t : State} (labels : s.labelsOk) (hs : s.controlOk)
    (executed : exec i s = .next t) : t.controlOk := by
  obtain ⟨pcInside, saved⟩ := hs
  cases exec_effect executed with
  | jumped _ target _ entry => exact ⟨lookup_le_of_labelsOk labels entry, saved⟩
  | called _ target _ entry =>
    exact ⟨lookup_le_of_labelsOk labels entry, List.forall_mem_cons.mpr ⟨pcInside, saved⟩⟩
  | returned target rest _ top =>
    rw [top] at saved
    exact List.forall_mem_cons.mp saved
  | _ => exact ⟨pcInside, saved⟩

/-- Settles O56: a fetched line lies before the end, so the pc after its fetch is at most L. -/
theorem stepKeepsControlInProgram : Obligations.StepKeepsControlInProgram := by
  intro s t inv control stepped
  obtain ⟨-, -, -, -, labels, -⟩ := inv
  obtain ⟨-, ⟨-, rfl⟩ | ⟨line, fetched, decoding⟩⟩ := step_cases stepped
  · exact control
  · obtain ⟨inside, -⟩ := List.getElem?_eq_some_iff.mp fetched
    obtain ⟨-, saved⟩ := control
    have advanced : s.advance.controlOk := ⟨inside, saved⟩
    rcases decoding with ⟨c, -, rfl⟩ | ⟨i, -, executed⟩
    · exact advanced
    · exact exec_keeps_controlOk (s := s.advance) labels advanced executed

end Sys2Proof.Machine
end

section
/-! SUPPORT. The statements of 44_heap_ops.md: ALLOC on SP, and STORE and LOAD on the cell an address names. -/

namespace Sys2Proof.Machine

/-! ## ALLOC (R145) -/

/-- Settles O43, by the sign of the lowered pointer. -/
theorem allocLowersPointer : Obligations.AllocLowersPointer := fun _ _ =>
  ⟨fun enough => if_neg (Int.not_lt.mpr enough), fun exhausted => if_pos exhausted, rfl⟩

/-! ## Addresses outside the heap (R48) -/

section Outside
variable {s : State} {addr : Int} (outside : addr < 0 ∨ (s.params.M : Int) ≤ addr)
include outside

theorem withCell_of_outside (use : Nat → Host.Outcome State Fault Refusal) :
    s.withCell addr use = .next (s.faultHalt (.heapAddressOutOfRange addr)) := by
  simp only [State.withCell, heapCell_eq_none.mpr outside, State.raise]

theorem exec_store_of_outside {r : Reg} {v : Word} (hv : s.readReg r = some v) :
    exec (.store r addr) s = .next (s.faultHalt (.heapAddressOutOfRange addr)) :=
  (withReg_some hv _).trans (withCell_of_outside outside _)

theorem exec_load_of_outside {r : Reg} (hr : s.hasReg r) :
    exec (.load r addr) s = .next (s.faultHalt (.heapAddressOutOfRange addr)) := by
  obtain ⟨old, hold⟩ := readReg_of_hasReg hr
  exact (withReg_some hold _).trans (withCell_of_outside outside _)

end Outside

/-! ## The content of a cell (R26, R48) -/

theorem memRead_of_stored {s : State} {a : Nat} {v : Word} (stored : tableGet a s.heap = some v) :
    s.memRead a = v := by
  simp [State.memRead, stored]

theorem memRead_of_fresh {s : State} {a : Nat} (fresh : tableGet a s.heap = none) :
    s.memRead a = s.params.heap0 a := by
  simp [State.memRead, fresh]

/-! ## STORE and LOAD (R146, R147) -/

/-- Settles O44: the write to the one cell inside the heap, the fault outside. -/
theorem storeWritesOneCell : Obligations.StoreWritesOneCell := by
  intro r addr s v hv
  refine ⟨?_, fun outside => exec_store_of_outside outside hv, rfl⟩
  rintro a rfl inside
  have stored := exec_store_of_readReg hv (heapCell_of_nat inside)
  exact ⟨s.memWrite a v, stored, memRead_memWrite_self s a v, fun b other => memRead_memWrite_ne other s v, rfl⟩

/-- Settles O45: the write of the cell's content inside the heap, the fault outside. -/
theorem loadReadsOneCell : Obligations.LoadReadsOneCell := by
  intro r addr s hr
  refine ⟨?_, fun outside => exec_load_of_outside outside hr, rfl⟩
  rintro a rfl inside
  exact ⟨exec_load_of_hasReg hr (heapCell_of_nat inside), fun v => memRead_of_stored, memRead_of_fresh⟩

end Sys2Proof.Machine
end

section
/-! SUPPORT. The statement of 60_exceptions.md: the faults of each instruction's row of R161. -/

namespace Sys2Proof.Machine

/-- Settles O24: the registers exist, so of the two effects that halt only the fault of the instruction's own row
is left, and every other effect leaves ERR, status and halt cause alone. -/
theorem eachInstructionRaisesOnlyItsFaults : Obligations.EachInstructionRaisesOnlyItsFaults := by
  intro i s t registers executed
  cases exec_effect executed with
  | raised c ownRow => exact .inr ⟨c, ownRow, rfl⟩
  | noRegister r operand missing => exact absurd (registers r operand) missing
  | printed r v => exact .inl ⟨emitOut_err s _, rfl, rfl⟩
  | _ => exact .inl ⟨rfl, rfl, rfl⟩

end Sys2Proof.Machine
end

section
/-! SUPPORT. The statements of 70_reset_and_hazards.md: the parameters CONSTRUCT accepts and the state it leaves, and
the runs from the canonical start state. -/

namespace Sys2Proof.Machine

/-! ## Construction (R180, R181) -/

theorem valid_iff {p : Params} : p.valid = true ↔
    (1 ≤ p.N ∧ p.N ≤ 10) ∧ 2 ≤ p.W ∧ (1 ≤ p.M ∧ p.M ≤ 2 ^ (p.W - 1)) ∧ ∀ D, p.depth = some D → 1 ≤ D := by
  simp [Params.valid, Option.all_eq_true, and_assoc]

theorem construct_of_not_valid {p : Params} (invalid : ¬ p.valid = true) :
    construct p = .refused .badParameters :=
  if_neg invalid

/-- Everything an accepted CONSTRUCT can do (R180). -/
theorem construct_eq_next_iff {p : Params} {s : State} :
    construct p = .next s ↔ p.valid = true ∧ s = State.fresh p := by
  constructor
  · intro accepted
    by_cases valid : p.valid = true
    · cases (construct_of_valid valid).symm.trans accepted
      exact ⟨valid, rfl⟩
    · cases (construct_of_not_valid valid).symm.trans accepted
  · rintro ⟨valid, rfl⟩
    exact construct_of_valid valid

/-- Settles O1: the accepted state is the fresh one, whose heap has no stored cell. -/
theorem constructGivesResetValues : Obligations.ConstructGivesResetValues := fun p valid =>
  ⟨State.fresh p, construct_of_valid valid, rfl, List.length_replicate,
    fun _ inside => List.getElem?_replicate_of_lt inside, fun _ _ => memRead_of_fresh rfl,
    rfl, rfl, rfl, rfl, rfl, rfl, rfl, rfl, rfl⟩

/-- Settles O2: acceptance is the validity check, and a state is given whenever it succeeds. -/
theorem constructAcceptsExactlyTheRanges : Obligations.ConstructAcceptsExactlyTheRanges := by
  intro p
  constructor
  · simp only [construct_eq_next_iff, exists_and_left, exists_eq, and_true, valid_iff]
  · exact fun noInstance => construct_of_not_valid fun valid => noInstance _ (construct_of_valid valid)

/-! ## The invariant at construction -/

/-- R180 leaves room for the register value 0, since W ≥ 2, and for SP = M - 1, since M ≥ 1. -/
theorem fresh_Inv {p : Params} (valid : p.valid = true) : (State.fresh p).Inv := by
  obtain ⟨-, wide, ⟨nonempty, -⟩, -⟩ := valid_iff.mp valid
  have regs : (State.fresh p).regsOk := by
    refine ⟨List.length_replicate, fun v hv => ?_⟩
    cases List.eq_of_mem_replicate hv
    exact isWord_of_abs_le_one wide (by decide) (by decide)
  have sp : (State.fresh p).spOk := ⟨Int.sub_nonneg_of_le (Int.ofNat_le.mpr nonempty), le_rfl⟩
  have depth : (State.fresh p).depthOk := depthOk_iff.mpr fun D _ => Nat.zero_le D
  exact ⟨valid, regs, ⟨List.Pairwise.nil, nofun⟩, sp, ⟨List.Pairwise.nil, nofun⟩, depth, iff_of_true rfl nofun⟩

theorem construct_Inv {p : Params} {s : State} (constructed : construct p = .next s) : s.Inv := by
  obtain ⟨valid, rfl⟩ := construct_eq_next_iff.mp constructed
  exact fresh_Inv valid

/-- Settles O53: the defaults of R6 to R9 are valid, so reset is an accepted construction too. -/
theorem constructionMeetsInvariant : Obligations.ConstructionMeetsInvariant :=
  ⟨fresh_Inv (p := Params.default) (by decide), fun _ _ => construct_Inv⟩

/-! ## Runs from the canonical start state (R184) -/

/-- What the canonical start state is: the invariants hold, and LOAD's lines are the program. -/
theorem canonicalStart_spec {p : Params} {lines : List Text} {s : State} (start : CanonicalStart p lines s) :
    s.Inv ∧ s.controlOk ∧ s.params = p ∧ s.prog = lines := by
  obtain ⟨c, l, constructed, loaded, ran⟩ := start
  have inv : s.Inv := hostRun_keeps_Inv (hostLoad_keeps_Inv (construct_Inv constructed) loaded) ran
  obtain ⟨-, rfl⟩ := construct_eq_next_iff.mp constructed
  obtain ⟨-, table, -, rfl⟩ := hostLoad_next loaded
  obtain ⟨-, rfl⟩ := hostRun_next ran
  exact ⟨inv, ⟨Nat.zero_le _, nofun⟩, rfl, rfl⟩

/-- No step writes what the host fixed (R42). -/
theorem step_keeps_program {s t : State} (stepped : step s = .next t) :
    t.params = s.params ∧ t.prog = s.prog ∧ t.labels = s.labels := by
  obtain ⟨-, ⟨-, rfl⟩ | ⟨-, -, ⟨c, -, rfl⟩ | ⟨i, -, executed⟩⟩⟩ := step_cases stepped
  · exact ⟨rfl, rfl, rfl⟩
  · exact ⟨rfl, rfl, rfl⟩
  · exact ⟨exec_params (s := s.advance) executed, exec_prog (s := s.advance) executed,
      exec_labels (s := s.advance) executed⟩

theorem reaches_keeps_program {s t : State} (run : Reaches s t) :
    t.params = s.params ∧ t.prog = s.prog ∧ t.labels = s.labels := by
  induction run with
  | refl => exact ⟨rfl, rfl, rfl⟩
  | tail _ stepped ih =>
    obtain ⟨params, prog, labels⟩ := step_keeps_program stepped
    rwa [params, prog, labels]

/-- The range of pc and CS is kept only together with the invariant, which bounds the label positions. -/
theorem reaches_keeps_Inv_controlOk {s t : State} (inv : s.Inv) (control : s.controlOk) (run : Reaches s t) :
    t.Inv ∧ t.controlOk :=
  reaches_induction (P := fun u => u.Inv ∧ u.controlOk) ⟨inv, control⟩
    (fun u v ⟨hInv, hControl⟩ stepped =>
      ⟨stepKeepsInvariant u v hInv stepped, stepKeepsControlInProgram u v hInv hControl stepped⟩) run

/-- Settles O57: the start state meets both invariants, and a run keeps them and what the host fixed. -/
theorem canonicalRunsStayInvariant : Obligations.CanonicalRunsStayInvariant := by
  intro p lines s t start run
  obtain ⟨inv, control, params, prog⟩ := canonicalStart_spec start
  obtain ⟨inv', control'⟩ := reaches_keeps_Inv_controlOk inv control run
  obtain ⟨params', prog', labels'⟩ := reaches_keeps_program run
  exact ⟨inv', control', params'.trans params, prog'.trans prog, labels'⟩

end Sys2Proof.Machine
end

section
/-! SUPPORT. The round trip of 30_encoding.md: the decoder reads the encoder's line as its instruction. -/

namespace Sys2Proof.Machine

/-- Settles O10: the encoder writes a line of the instruction's own format table, and the decoder accepts every
such line of a well-formed instruction. -/
theorem decodeEncodeAgree : Obligations.DecodeEncodeAgree := fun p i wellFormed =>
  (decoderAcceptsExactlyTheFormats p (encode i) i).mpr ⟨spells_encode i, wellFormed⟩

end Sys2Proof.Machine
end
